-- ==== Sys2Proof/Word.lean ====
section
/-! DEFINITION. The word types of the hardware: an opcode, an operand and the three 8-bit registers are bytes, the program
counter is a 16-bit offset (00_scope.md R4, R8). -/

namespace Sys2Proof

/-- An 8-bit value: a register, an opcode byte or an operand byte (R4). -/
abbrev Byte := BitVec 8

/-- A 16-bit offset into the program (R20). -/
abbrev Offset := BitVec 16

end Sys2Proof
end

