-- ==== Sys2Proof/Syntax.lean ====
section
/-! DEFINITION. The decoded Instruction (30_encoding.md R59): one constructor per row of the opcode table. -/

namespace Sys2Proof

/-- "a tagged variant over" the five rows of the opcode table (R52, R59). -/
inductive Instr where
  /-- 0x00 (R81) -/
  | halt
  /-- 0xA9 and its operand byte (R83) -/
  | loadAccumulatorImmediate (value : Byte)
  /-- 0xAA (R84) -/
  | transferAccumulatorToIndex
  /-- 0xE8 (R85) -/
  | incrementIndex
  /-- any other byte in opcode position, carried unchanged (R82) -/
  | unrecognized (rawByte : Byte)
  deriving DecidableEq, Repr

end Sys2Proof
end

