-- ==== Sys2Proof/WellFormed.lean ====
section
/-! DEFINITION. Which terms of `Instr` stand for an instruction of the hardware. -/

namespace Sys2Proof

/-- The four bytes that have a row of their own in the opcode table (30_encoding.md R52). -/
def tableOpcodes : List Byte := [0x00#8, 0xA9#8, 0xAA#8, 0xE8#8]

/-- Every variant is well formed but an `unrecognized` that carries a byte of the table: that byte decodes to the
instruction of its own row (R53). Every operand byte is legal (R54). -/
def Instr.wellFormed : Instr → Bool
  | .halt => true
  | .loadAccumulatorImmediate _ => true
  | .transferAccumulatorToIndex => true
  | .incrementIndex => true
  | .unrecognized rawByte => !tableOpcodes.contains rawByte

end Sys2Proof
end

