-- ==== Sys2Proof/Decode.lean ====
section
/-! DEFINITION. The decoder (30_encoding.md R48 to R56), total on any bytes, and the encoder written from the same table. -/

namespace Sys2Proof

/-- What the first byte settles (R53): a complete instruction, or one whose operand byte is still to be fetched. -/
inductive Opcode where
  | complete (i : Instr)
  | operandPending
  deriving DecidableEq, Repr

/-- `decode_opcode` (R53): a total function of byte 0, by exact match of all eight bits (R52). -/
def decodeOpcode (b : Byte) : Opcode :=
  if b = 0x00#8 then .complete .halt
  else if b = 0xA9#8 then .operandPending
  else if b = 0xAA#8 then .complete .transferAccumulatorToIndex
  else if b = 0xE8#8 then .complete .incrementIndex
  else .complete (.unrecognized b)

/-- Format `IMM` (R50, R51): the instruction that the pending operand byte completes; the operand is the byte itself. -/
def operandInstr (imm8 : Byte) : Instr := .loadAccumulatorImmediate imm8

/-- Why a byte sequence holds no whole instruction. Every byte in opcode position decodes to something (R53), so only a
missing byte is rejected. -/
inductive DecodeError where
  | missingOpcode
  | missingOperand
  deriving DecidableEq, Repr

/-- The result of decoding a byte sequence: the instruction and the bytes after it, or the reason there is none. -/
inductive Decoded where
  | instr (i : Instr) (rest : List Byte)
  | rejected (e : DecodeError)
  deriving DecidableEq, Repr

/-- The first instruction of a byte sequence in stream order, opcode byte first (R36, R48). -/
def decode : List Byte → Decoded
  | [] => .rejected .missingOpcode
  | b :: rest =>
    match decodeOpcode b with
    | .complete i => .instr i rest
    | .operandPending =>
      match rest with
      | [] => .rejected .missingOperand
      | v :: rest' => .instr (operandInstr v) rest'

/-- The bytes of an instruction in stream order (R49, R50, R52). -/
def encode : Instr → List Byte
  | .halt => [0x00#8]
  | .loadAccumulatorImmediate value => [0xA9#8, value]
  | .transferAccumulatorToIndex => [0xAA#8]
  | .incrementIndex => [0xE8#8]
  | .unrecognized rawByte => [rawByte]

/-- The number of bytes an instruction occupies (R48, R52). -/
def Instr.length : Instr → Nat
  | .halt => 1
  | .loadAccumulatorImmediate _ => 2
  | .transferAccumulatorToIndex => 1
  | .incrementIndex => 1
  | .unrecognized _ => 1

/-- The longest instruction in bytes (R48). -/
def maxInstrLength : Nat := 2

/-- The bytes of an instruction whose bits are `w`, byte 0 the least significant; the bits from `nbits` up are zero, up to
the longest instruction. -/
def tableBytes (nbits w : Nat) : List Byte :=
  (List.range maxInstrLength).map fun k => BitVec.ofNat 8 ((w % 2 ^ nbits) / 2 ^ (8 * k))

/-- The instruction the decoder reads from a word numbered as opcode_table.json numbers its bits. -/
def decodeTableWord (nbits w : Nat) : Option Instr :=
  match decode (tableBytes nbits w) with
  | .instr i _ => some i
  | .rejected _ => none

end Sys2Proof
end

