-- ==== Sys2Proof/Config.lean ====
section
/-! DEFINITION. What an implementation fixes: the parameter INC_SOURCE (00_scope.md R6) and the bound on PROGRAM_LEN (R5).
The spec leaves no value of the machine open, so there is no free value here. -/

namespace Sys2Proof

/-- The values of the parameter `INC_SOURCE` (R6): which register `increment_register` reads. -/
inductive IncSource where
  | accumulator
  | indexX
  deriving DecidableEq, Repr

/-- This hardware's `INC_SOURCE` (R6, decision D1). DESIGN CHOICE (the spec's own decision, log entry 1): unsafe. -/
def Config.incSource : IncSource := .accumulator

/-- The largest admitted program length (R5, decision D2). DESIGN CHOICE (the spec's own decision, log entry 2): safe. -/
def Config.maxProgramLen : Nat := 65535

end Sys2Proof
end

