-- ==== Sys2Proof/Machine/State.lean ====
section
/-! DEFINITION. The state of the machine as plain data (10_state.md), the host's requests, and the reasons a step may stop. -/

namespace Sys2Proof.Machine

/-- The targets of `write_register` and `increment_register` (40_register_file_ops.md R61, R63). -/
inductive Reg where
  | accumulator
  | indexX
  deriving DecidableEq, Repr

/-- The two defined flags of the status byte (10_state.md R16). -/
inductive Flag where
  | zero
  | negative
  deriving DecidableEq, Repr

/-- The run state (10_state.md R26). -/
inductive RunState where
  | idle
  | running
  | halted
  | faulted
  deriving DecidableEq, Repr

/-- The fault record (10_state.md R27, 60_exceptions.md R99, R100): a closed enumeration with no numeric codes (R101). -/
inductive FaultRecord where
  | none
  | unimplementedOpcode (rawByte : Byte) (position : Offset)
  | outOfBoundsFetch (position : Offset)
  deriving DecidableEq, Repr

/-- The program space (20_memory.md R32, R33): cells `(offset, byte)`. Its canonical form is `Memory.wf`. -/
abbrev Memory := List Host.Cell

/-- What a Preset writes: one field of the Processor State and its value (45_host_operations.md R88). -/
inductive Preset where
  | a (v : Byte)
  | x (v : Byte)
  | p (v : Byte)
  | pc (v : Offset)
  deriving DecidableEq, Repr

/-- The four host transactions (45_host_operations.md R86 to R90). -/
inductive HostRequest where
  | construct
  | preset (w : Preset)
  | run (program : List Byte)
  | observe
  deriving DecidableEq, Repr

/-- What Observe gives the host (45_host_operations.md R90). -/
structure Observation where
  a : Byte
  x : Byte
  p : Byte
  pc : Offset
  zero : Bool
  negative : Bool
  run : RunState
  fault : FaultRecord
  deriving DecidableEq, Repr

/-- The Processor State (R13), the hidden state (R26, R27), the program of the current run (R5, R33) and the host's side. -/
structure State where
  /-- accumulator `A` (R14) -/
  a : Byte
  /-- index_x `X` (R15) -/
  x : Byte
  /-- status `P`: bit 1 Zero, bit 7 Negative, the rest reserved (R16) -/
  p : Byte
  /-- program_counter `PC` (R20) -/
  pc : Offset
  /-- run state (R26) -/
  run : RunState
  /-- fault record (R27) -/
  fault : FaultRecord
  /-- the program of the current run (R5, R33) -/
  prog : Memory
  /-- the MODEL's own field: what the host will ask for, oldest first. DESIGN CHOICE (log entry 9): safe. -/
  requests : List HostRequest
  /-- the MODEL's own field: what each Observe gave back, oldest first. DESIGN CHOICE (log entry 11): safe. -/
  observations : List Observation
  deriving DecidableEq, Repr

/-- The result of fetching one byte at `PC`: the byte and the state after it, or the state after the fault it raised. -/
inductive ByteFetch where
  | byte (b : Byte) (s : State)
  | raised (s : State)
  deriving DecidableEq, Repr

/-- The result of the Fetch and Decode phases: the Instruction (ephemeral, R25) with the state before Execute, or the state
after the fault a fetch raised. -/
inductive InstrFetch where
  | decoded (i : Instr) (s : State)
  | raised (s : State)
  deriving DecidableEq, Repr

/-- Reasons for the model to stop: none. The two faults of the hardware leave a state that the spec describes
(60_exceptions.md R104, R105, R108), so they are next states, and a step is total (41_fde_loop.md R74). DESIGN CHOICE (log
entry 6): safe. -/
inductive Fault
  deriving DecidableEq, Repr

/-- Reasons to refuse an instruction. -/
inductive Refusal where
  /-- Raised by an arm of `exec` whose instruction has no meaning yet; no arm does. Safe: the step answers no state. -/
  | notModelled (mnemonic : String)
  deriving DecidableEq, Repr

/-- Construction, the power-on reset (10_state.md R28). The program and the host's side are empty: DESIGN CHOICE (log entries
9, 11, 12). -/
def State.reset : State where
  a := 0x00#8
  x := 0x00#8
  p := 0x00#8
  pc := 0x0000#16
  run := .idle
  fault := .none
  prog := []
  requests := []
  observations := []

end Sys2Proof.Machine
end

