-- ==== Sys2Proof/Machine/Flags.lean ====
section
/-! DEFINITION. The status byte and its two flags (10_state.md R16 to R19, 40_register_file_ops.md R64 to R66). -/

namespace Sys2Proof.Machine

/-- `Z_MASK` (R17): status bit 1. -/
def zMask : Byte := 0x02#8

/-- `N_MASK` (R18): status bit 7. -/
def nMask : Byte := 0x80#8

/-- The reserved bits of `P`: 0, 2, 3, 4, 5, 6 (R19). -/
def reservedMask : Byte := 0x7D#8

/-- The mask of a flag (R65). -/
def Flag.mask : Flag → Byte
  | .zero => zMask
  | .negative => nMask

/-- `read_flag` (R64). -/
def readFlag (f : Flag) (s : State) : Bool := (s.p &&& f.mask) != 0

/-- `write_flag` (R65): one bit of `P`, every other bit untouched. -/
def writeFlag (f : Flag) (v : Bool) (s : State) : State :=
  { s with p := if v then s.p ||| f.mask else s.p &&& ~~~f.mask }

/-- The Zero flag's rule (R61): the value written is 0. -/
def zeroOf (value : Byte) : Bool := value == 0

/-- The Negative flag's rule (R61): bit 7 of the value written, `value & 0x80 != 0`. -/
def negativeOf (value : Byte) : Bool := (value &&& nMask) != 0

/-- Both flags recomputed from the value just written, unconditionally (R61, R62). -/
def writeFlags (value : Byte) (s : State) : State :=
  writeFlag .negative (negativeOf value) (writeFlag .zero (zeroOf value) s)

/-- The status byte `write_register` leaves, in the one assignment of R61. -/
def statusAfter (p value : Byte) : Byte :=
  (p &&& reservedMask) ||| (if value = 0 then zMask else 0) ||| (value &&& nMask)

end Sys2Proof.Machine
end

