-- ==== Sys2Proof/Machine/Operands.lean ====
section
/-! DEFINITION. The operand forms: a register fixed by the opcode, and the immediate (30_encoding.md R49 to R51). -/

namespace Sys2Proof.Machine

/-- The content of a general register (10_state.md R14, R15). -/
def readReg (r : Reg) (s : State) : Byte :=
  match r with
  | .accumulator => s.a
  | .indexX => s.x

/-- A general register replaced, nothing else: the store inside `write_register` (40_register_file_ops.md R61). -/
def storeReg (r : Reg) (v : Byte) (s : State) : State :=
  match r with
  | .accumulator => { s with a := v }
  | .indexX => { s with x := v }

/-- The immediate operand: the operand byte itself, not extended, scaled or combined (30_encoding.md R51). -/
def immediate (imm8 : Byte) : Byte := imm8

/-- The source operand of `increment_register(target)` (40_register_file_ops.md R63): the accumulator whatever the target,
or the target's own value, as `INC_SOURCE` says. -/
def incrementOperand (src : IncSource) (target : Reg) (s : State) : Byte :=
  match src with
  | .accumulator => s.a
  | .indexX => readReg target s

end Sys2Proof.Machine
end

