-- ==== Sys2Proof/Machine/Ops.lean ====
section
/-! DEFINITION. The named operations over registers, program space and run state: `write_register`, `increment_register`,
the program port, raising a fault, and the run start. -/

namespace Sys2Proof.Machine

/-- `write_register` (40_register_file_ops.md R61): the target, then both flags from the value written. -/
def writeRegister (target : Reg) (value : Byte) (s : State) : State :=
  writeFlags value (storeReg target value s)

/-- `increment_register` (40_register_file_ops.md R63, R67): the source plus one with 8-bit wraparound, into the target. -/
def incrementRegister (src : IncSource) (target : Reg) (s : State) : State :=
  writeRegister target (incrementOperand src target s + 1) s

/-- What an unlisted offset holds: nothing (20_memory.md R33). Reading it is the OutOfBoundsFetch fault (R34). -/
def Memory.unlisted (_offset : Nat) : Option Byte := none

/-- The byte at an offset. -/
def Memory.read : Memory → Nat → Option Byte
  | [], k => Memory.unlisted k
  | (j, b) :: rest, k => if j = k then some b else Memory.read rest k

/-- `PROGRAM_LEN`, the number of bytes of the program (00_scope.md R5). -/
def Memory.len (m : Memory) : Nat := m.length

/-- The cells of a byte sequence laid out from offset `k` on. -/
def Memory.ofBytesFrom (k : Nat) : List Byte → Memory
  | [] => []
  | b :: rest => (k, b) :: Memory.ofBytesFrom (k + 1) rest

/-- The program space of a byte sequence: offset `i` holds byte `i` (20_memory.md R33, R39). -/
def Memory.ofBytes (bytes : List Byte) : Memory := Memory.ofBytesFrom 0 bytes

/-- The cells stand at the offsets `k`, `k + 1`, … with no gap, so strictly rising. -/
def Memory.contiguousFrom (k : Nat) : Memory → Bool
  | [] => true
  | (j, _) :: rest => j == k && Memory.contiguousFrom (k + 1) rest

/-- The canonical form of the program space: one cell for each offset `0` to `L - 1`, in order, `L` at most 65535 (00_scope.md
R5, 20_memory.md R33). No cell equals what an unlisted offset holds, since that is nothing. -/
def Memory.wf (m : Memory) : Bool :=
  Memory.contiguousFrom 0 m && decide (m.len ≤ Config.maxProgramLen)

/-- `ProgRead` (20_memory.md R34), the only memory access: the byte at a 16-bit offset, or nothing past the end. -/
def progRead (m : Memory) (offset : Offset) : Option Byte := m.read offset.toNat

/-- At most `n` bytes of the program from an offset on, in stream order, up to the first that is not there. -/
def bytesFrom (m : Memory) : Nat → Offset → List Byte
  | 0, _ => []
  | n + 1, offset =>
    match progRead m offset with
    | none => []
    | some b => b :: bytesFrom m n (offset + 1)

/-- The program counter moved past `n` bytes. Within a run it never wraps (10_state.md R21). -/
def advancePc (n : Nat) (s : State) : State := { s with pc := s.pc + BitVec.ofNat 16 n }

/-- `raise F(info)` (60_exceptions.md R104): the record set and the run over; nothing saved, no handler. -/
def raise (f : FaultRecord) (s : State) : State := { s with fault := f, run := .faulted }

/-- "normal completion" of the run (41_fde_loop.md R73, R78). -/
def complete (s : State) : State := { s with run := .halted }

/-- The run start (10_state.md R29, 45_host_operations.md R89): `PC` at 0, the record cleared, the run in progress on the given
program; `A`, `X` and `P` kept. -/
def runStart (program : List Byte) (s : State) : State :=
  { s with pc := 0, fault := .none, run := .running, prog := Memory.ofBytes program }

end Sys2Proof.Machine
end

