-- ==== Sys2Proof/Machine/Arith.lean ====
section
/-! DEFINITION. The arithmetic instruction (44_instr_arith.md). -/

namespace Sys2Proof.Machine

/-- IncrementIndex (R85): `increment_register(IndexX)` under this hardware's `INC_SOURCE`. -/
def execIncrementIndex (s : State) : Host.Outcome State Fault Refusal :=
  .next (incrementRegister Config.incSource .indexX s)

end Sys2Proof.Machine
end

