-- ==== Sys2Proof/Machine/Data.lean ====
section
/-! DEFINITION. The data movement instructions (43_instr_data.md). -/

namespace Sys2Proof.Machine

/-- LoadAccumulatorImmediate (R83): `write_register(Accumulator, value)`. -/
def execLoadAccumulatorImmediate (value : Byte) (s : State) : Host.Outcome State Fault Refusal :=
  .next (writeRegister .accumulator (immediate value) s)

/-- TransferAccumulatorToIndex (R84): `write_register(IndexX, A)`. -/
def execTransferAccumulatorToIndex (s : State) : Host.Outcome State Fault Refusal :=
  .next (writeRegister .indexX (readReg .accumulator s) s)

end Sys2Proof.Machine
end

