-- ==== Sys2Proof/Machine/System.lean ====
section
/-! DEFINITION. The instructions that end a run (42_instr_system.md). The state is the one at Execute: `PC` already stands
past the instruction's bytes. -/

namespace Sys2Proof.Machine

/-- Halt (R81): the run ends in normal completion; no register, flag or program counter is written. -/
def execHalt (s : State) : Host.Outcome State Fault Refusal := .next (complete s)

/-- Unrecognized (R82, 60_exceptions.md R99): raises UnimplementedOpcode with the byte and its offset `PC - 1`. -/
def execUnrecognized (rawByte : Byte) (s : State) : Host.Outcome State Fault Refusal :=
  .next (raise (.unimplementedOpcode rawByte (s.pc - 1)) s)

end Sys2Proof.Machine
end

