-- ==== Sys2Proof/Machine/Dispatch.lean ====
section
/-! DEFINITION. The Execute phase: a pure dispatch on the Instruction (41_fde_loop.md R72). -/

namespace Sys2Proof.Machine

def exec (i : Instr) (s : State) : Host.Outcome State Fault Refusal :=
  match i with
  | .halt => Sys2Proof.Machine.execHalt s
  | .loadAccumulatorImmediate value => Sys2Proof.Machine.execLoadAccumulatorImmediate value s
  | .transferAccumulatorToIndex => Sys2Proof.Machine.execTransferAccumulatorToIndex s
  | .incrementIndex => Sys2Proof.Machine.execIncrementIndex s
  | .unrecognized rawByte => Sys2Proof.Machine.execUnrecognized rawByte s

end Sys2Proof.Machine
end

