-- ==== Sys2Proof/Machine/Fetch.lean ====
section
/-! DEFINITION. The Fetch and Decode phases of a step (41_fde_loop.md R70, R71). -/

namespace Sys2Proof.Machine

/-- One byte through the program port at `PC` (R70, R92): `PC` advances by 1 if the read succeeds; if it fails,
OutOfBoundsFetch is raised at `PC`, which does not advance (60_exceptions.md R100, R105, decision D4, log entry 4). -/
def fetchByte (s : State) : ByteFetch :=
  match progRead s.prog s.pc with
  | some b => .byte b (advancePc 1 s)
  | none => .raised (raise (.outOfBoundsFetch s.pc) s)

/-- Opcode fetch, decode, and the operand fetch where the opcode asks for one (R70, R71, R103). The advance made for the
opcode byte stands when the operand is missing. -/
def fetchInstr (s : State) : InstrFetch :=
  match fetchByte s with
  | .raised t => .raised t
  | .byte b t =>
    match decodeOpcode b with
    | .complete i => .decoded i t
    | .operandPending =>
      match fetchByte t with
      | .raised u => .raised u
      | .byte v u => .decoded (operandInstr v) u

end Sys2Proof.Machine
end

