-- ==== Sys2Proof/Machine/Ports.lean ====
section
/-! DEFINITION. The output ports of 45_host_operations.md R96, as a view of the state: names and widths with no clock, no
handshake and no timing. No step reads them. -/

namespace Sys2Proof.Machine

/-- The values of `fault_kind` (R96); no numeric coding is fixed. -/
inductive FaultKind where
  | none
  | unimplementedOpcode
  | outOfBoundsFetch
  deriving DecidableEq, Repr

/-- The output ports (R96) and the program port's answer. `faultByte` and `faultPos` are absent where the fault has no such
data. -/
structure Ports where
  progLen : Offset
  progAddr : Offset
  progData : Option Byte
  acc : Byte
  idxX : Byte
  status : Byte
  pc : Offset
  runState : RunState
  faultKind : FaultKind
  faultByte : Option Byte
  faultPos : Option Offset
  deriving DecidableEq, Repr

/-- `fault_kind` (R91, R96). -/
def faultKindOf : FaultRecord → FaultKind
  | .none => .none
  | .unimplementedOpcode _ _ => .unimplementedOpcode
  | .outOfBoundsFetch _ => .outOfBoundsFetch

/-- `fault_byte`: the offending byte of an UnimplementedOpcode fault (R96). -/
def faultByteOf : FaultRecord → Option Byte
  | .none => none
  | .unimplementedOpcode rawByte _ => some rawByte
  | .outOfBoundsFetch _ => none

/-- `fault_pos`: the position of either fault (R96). -/
def faultPosOf : FaultRecord → Option Offset
  | .none => none
  | .unimplementedOpcode _ position => some position
  | .outOfBoundsFetch position => some position

/-- The ports as the state drives them; `prog_addr` is always `PC` (R92). -/
def portsOf (s : State) : Ports where
  progLen := BitVec.ofNat 16 s.prog.len
  progAddr := s.pc
  progData := progRead s.prog s.pc
  acc := s.a
  idxX := s.x
  status := s.p
  pc := s.pc
  runState := s.run
  faultKind := faultKindOf s.fault
  faultByte := faultByteOf s.fault
  faultPos := faultPosOf s.fault

end Sys2Proof.Machine
end

