-- ==== Sys2Proof/Machine/Transactions.lean ====
section
/-! DEFINITION. The host transactions (45_host_operations.md): Construct, Preset, Run, Observe, the fault report and the
ports. -/

namespace Sys2Proof.Machine

/-- Construct (R86, 10_state.md R28): everything of the machine as at power-on; the host's side stays. -/
def construct (s : State) : State :=
  { State.reset with requests := s.requests, observations := s.observations }

/-- Preset (R88): one field written, nothing checked, nothing recomputed. -/
def preset (w : Preset) (s : State) : State :=
  match w with
  | .a v => { s with a := v }
  | .x v => { s with x := v }
  | .p v => { s with p := v }
  | .pc v => { s with pc := v }

/-- Run (R89): the run start, or no change at all for a program longer than 65535 bytes. -/
def startRun (program : List Byte) (s : State) : State :=
  if program.length ≤ Config.maxProgramLen then runStart program s else s

/-- What the host reads (R90, R91): the four fields, the two flags read from `P`, the run state and the fault record. -/
def observation (s : State) : Observation where
  a := s.a
  x := s.x
  p := s.p
  pc := s.pc
  zero := readFlag .zero s
  negative := readFlag .negative s
  run := s.run
  fault := s.fault

/-- Observe (R90): no side effect on the machine; the host keeps what it read. -/
def observe (s : State) : State := { s with observations := s.observations ++ [observation s] }

/-- One host transaction. -/
def transact (r : HostRequest) (s : State) : State :=
  match r with
  | .construct => construct s
  | .preset w => preset w s
  | .run program => startRun program s
  | .observe => observe s

/-- The host's turn, when no run is in progress: its oldest request is served; with no request every field keeps its value
(60_exceptions.md R114). -/
def hostTurn (s : State) : State :=
  match s.requests with
  | [] => s
  | r :: rest => transact r { s with requests := rest }

end Sys2Proof.Machine
end

