-- ==== Sys2Proof/Machine/Step.lean ====
section
/-! DEFINITION. One step: an instruction step while a run is in progress (41_fde_loop.md R74), else the host's turn. -/

namespace Sys2Proof.Machine

/-- One step of the machine. While `run = Running` it is the core's `step` (R74) and the host has no move
(45_host_operations.md R94); otherwise the core has no step and only the host can act (R74, R114). -/
def step (s : State) : Host.Outcome State Fault Refusal :=
  if s.run = .running then
    match fetchInstr s with
    | .decoded i t => exec i t
    | .raised t => .next t
  else .next (hostTurn s)

/-- `s` at the start of a run whose program is the bytes of an instruction given as a table word, so that the next step
fetches and runs it. It stands for the host's Run (log entry 13). -/
def State.withFetchWord (s : State) (nbits w : Nat) : State := runStart (tableBytes nbits w) s

end Sys2Proof.Machine
end

