-- ==== Sys2Proof/Safety.lean ====
section
/-! DEFINITION. What claims are stated in: the machine invariant, the end of a run, and the one pass over a program's bytes
that tells how its run ends (70_reset_and_hazards.md R120). -/

namespace Sys2Proof

open Machine

/-- The machine invariant: the program is in canonical form (00_scope.md R5, 20_memory.md R33), there is a fault record exactly
when the run is Faulted (10_state.md R27), and within a run `0 <= PC <= L` (R21). -/
abbrev Safety.Invariant (s : State) : Prop :=
  s.prog.wf = true ∧ (s.run = .faulted ↔ s.fault ≠ .none) ∧ (s.run = .running → s.pc.toNat ≤ s.prog.len)

/-- The only successful end of a run (41_fde_loop.md R78): normal completion with no fault recorded. -/
abbrev Safety.Succeeded (s : State) : Prop := s.run = .halted ∧ s.fault = .none

/-- Everything of the machine is equal: the Processor State, the run state, the fault record and the program. Only the host's
side may differ. -/
abbrev Safety.SameCore (s t : State) : Prop :=
  s.a = t.a ∧ s.x = t.x ∧ s.p = t.p ∧ s.pc = t.pc ∧ s.run = t.run ∧ s.fault = t.fault ∧ s.prog = t.prog

/-- Every byte of the program space reads the same. -/
def Safety.SameMemory (s t : State) : Prop := ∀ k : Nat, t.prog.read k = s.prog.read k

/-- The host's side of the interface is the same. -/
abbrev Safety.SameHostSide (s t : State) : Prop := t.requests = s.requests ∧ t.observations = s.observations

/-- The two flags are those of the value `v` (10_state.md R30). -/
abbrev Safety.FlagsDescribe (v : Byte) (s : State) : Prop :=
  readFlag .zero s = (v == 0) ∧ readFlag .negative s = v.getLsbD 7

/-- At most `n` instruction steps, as long as the run is in progress (45_host_operations.md R89): the host's requests wait. -/
def Safety.runToEnd : Nat → State → State
  | 0, s => s
  | n + 1, s =>
    if s.run = .running then
      match step s with
      | .next t => Safety.runToEnd n t
      | .fault _ => s
      | .refused _ => s
    else s

/-- How a run of the bytes that stand from offset `k` on ends, by one pass over them and no register value (R120): `none` for
normal completion, else the fault it records. -/
def Safety.verdictFrom (k : Nat) : List Byte → FaultRecord
  | [] => .outOfBoundsFetch (BitVec.ofNat 16 k)
  | b :: rest =>
    if b = 0x00#8 then .none
    else if b = 0xA9#8 then
      match rest with
      | [] => .outOfBoundsFetch (BitVec.ofNat 16 (k + 1))
      | _ :: rest' => Safety.verdictFrom (k + 2) rest'
    else if b = 0xAA#8 ∨ b = 0xE8#8 then Safety.verdictFrom (k + 1) rest
    else .unimplementedOpcode b (BitVec.ofNat 16 k)

/-- How a run of a program ends (R120). -/
def Safety.verdict (program : List Byte) : FaultRecord := Safety.verdictFrom 0 program

end Sys2Proof
end

