-- ==== Sys2Proof/Certificates/Slice0/Obligations.lean ====
section
/-! DEFINITION. The statements for the provers, drawn from the spec's numbered rules. Each docstring names the rules, or the
sections and the log entry, it rests on. -/

open Sys2Proof Sys2Proof.Machine Sys2Proof.Safety

/-! ### Reset and run start -/

/-- R28: construction zeroes every field of the Processor State, both flags and every reserved bit included, and leaves
`run = Idle`, `fault = None`; so does Construct on any state. -/
def Obligations.ConstructionZeroesEverything : Prop :=
  (State.reset.a = 0 ∧ State.reset.x = 0 ∧ State.reset.p = 0 ∧ State.reset.pc = 0 ∧
    readFlag .zero State.reset = false ∧ readFlag .negative State.reset = false ∧
    State.reset.p &&& 0x7D#8 = 0 ∧ State.reset.run = .idle ∧ State.reset.fault = .none) ∧
  ∀ s : State, (construct s).a = 0 ∧ (construct s).x = 0 ∧ (construct s).p = 0 ∧ (construct s).pc = 0 ∧
    (construct s).run = .idle ∧ (construct s).fault = .none

/-- R29 and R117: run start sets `PC` to 0 whatever it was and nothing else of the Processor State, with `run = Running` and
`fault = None`; the first opcode is fetched from offset 0 of the supplied program, whatever `PC` was before. -/
def Obligations.RunStartResetsThePcAndFetchesOffsetZero : Prop :=
  ∀ (program : List Byte) (s : State),
    (runStart program s).pc = 0 ∧ (runStart program s).a = s.a ∧ (runStart program s).x = s.x ∧
    (runStart program s).p = s.p ∧ (runStart program s).run = .running ∧ (runStart program s).fault = .none ∧
    (∀ (b : Byte) (rest : List Byte), program = b :: rest →
      fetchByte (runStart program s) = .byte b { runStart program s with pc := 1 }) ∧
    (∀ q : Offset, runStart program { s with pc := q } = runStart program s)

/-! ### Register file operations -/

/-- R61: `write_register` stores the value and recomputes both flags from it; the one-assignment form of the status byte;
nothing else is touched. -/
def Obligations.WriteRegisterStoresAndSetsFlags : Prop :=
  ∀ (r : Reg) (v : Byte) (s : State),
    readReg r (writeRegister r v s) = v ∧
    (∀ q : Reg, q ≠ r → readReg q (writeRegister r v s) = readReg q s) ∧
    (readFlag .zero (writeRegister r v s) = true ↔ v = 0) ∧
    (readFlag .negative (writeRegister r v s) = true ↔ v &&& 0x80#8 ≠ 0) ∧
    (readFlag .negative (writeRegister r v s) = v.getLsbD 7) ∧
    (writeRegister r v s).p = (s.p &&& 0x7D#8) ||| (if v = 0 then 0x02#8 else 0x00#8) ||| (v &&& 0x80#8) ∧
    (writeRegister r v s).p &&& 0x7D#8 = s.p &&& 0x7D#8 ∧
    (writeRegister r v s).pc = s.pc ∧ (writeRegister r v s).run = s.run ∧
    (writeRegister r v s).fault = s.fault ∧ (writeRegister r v s).prog = s.prog

/-- R62: the flags after `write_register` depend on the value alone, and only three of the four flag pairs can result. -/
def Obligations.FlagsDependOnTheValueAlone : Prop :=
  (∀ (f : Flag) (r q : Reg) (v : Byte) (s t : State),
    readFlag f (writeRegister r v s) = readFlag f (writeRegister q v t)) ∧
  (∀ (r : Reg) (v : Byte) (s : State),
    (v = 0 → readFlag .zero (writeRegister r v s) = true ∧ readFlag .negative (writeRegister r v s) = false) ∧
    (0x01 ≤ v.toNat ∧ v.toNat ≤ 0x7F →
      readFlag .zero (writeRegister r v s) = false ∧ readFlag .negative (writeRegister r v s) = false) ∧
    (0x80 ≤ v.toNat →
      readFlag .zero (writeRegister r v s) = false ∧ readFlag .negative (writeRegister r v s) = true) ∧
    ¬ (readFlag .zero (writeRegister r v s) = true ∧ readFlag .negative (writeRegister r v s) = true)) ∧
  (∀ (v : Byte) (s : State), (writeRegister .accumulator v s).x = s.x)

/-- 40_register_file_ops.md sections 3 and 4: `read_flag` reads bit 1 or bit 7 of `P`, and `write_flag` sets or clears exactly
that bit and leaves every other bit and every other field as it was. -/
def Obligations.WriteFlagChangesExactlyOneBit : Prop :=
  ∀ (v : Bool) (s : State),
    (∀ j : Nat, (writeFlag .zero v s).p.getLsbD j = if j = 1 then v else s.p.getLsbD j) ∧
    (∀ j : Nat, (writeFlag .negative v s).p.getLsbD j = if j = 7 then v else s.p.getLsbD j) ∧
    readFlag .zero s = s.p.getLsbD 1 ∧ readFlag .negative s = s.p.getLsbD 7 ∧
    (∀ f : Flag, writeFlag f v s = { s with p := (writeFlag f v s).p })

/-- 40_register_file_ops.md section 2: `increment_register` adds 1 with 8-bit wraparound to the source that INC_SOURCE selects,
for both settings of the parameter (which setting the hardware has is decision D1, log entry 1), and writes the result into
the target with its flags. -/
def Obligations.IncrementAddsOneModulo256 : Prop :=
  ∀ (r : Reg) (s : State),
    (readReg r (incrementRegister .accumulator r s)).toNat = (s.a.toNat + 1) % 256 ∧
    (readReg r (incrementRegister .indexX r s)).toNat = ((readReg r s).toNat + 1) % 256 ∧
    (∀ (src : IncSource) (q : Reg), q ≠ r → readReg q (incrementRegister src r s) = readReg q s) ∧
    (∀ src : IncSource, FlagsDescribe (readReg r (incrementRegister src r s)) (incrementRegister src r s) ∧
      (incrementRegister src r s).p &&& 0x7D#8 = s.p &&& 0x7D#8 ∧ (incrementRegister src r s).pc = s.pc)

/-- 44_instr_arith.md, corner cases, for both settings of decision D1 (log entry 1): under INC_SOURCE = Accumulator a second
increment changes nothing and the old `X` never matters; under INC_SOURCE = IndexX `n` increments add `n` modulo 256 and `A`
never matters; the settings agree exactly when `A = X`. -/
def Obligations.IncrementSettingsCompared : Prop :=
  (∀ s : State, incrementRegister .accumulator .indexX (incrementRegister .accumulator .indexX s) =
    incrementRegister .accumulator .indexX s) ∧
  (∀ (s : State) (v : Byte), incrementRegister .accumulator .indexX { s with x := v } =
    incrementRegister .accumulator .indexX s) ∧
  (∀ (s : State) (n : Nat), ((incrementRegister .indexX .indexX)^[n] s).x = s.x + BitVec.ofNat 8 n) ∧
  (∀ (s : State) (v : Byte), incrementRegister .indexX .indexX { s with a := v } =
    { incrementRegister .indexX .indexX s with a := v }) ∧
  (∀ s : State, incrementRegister .accumulator .indexX s = incrementRegister .indexX .indexX s ↔ s.a = s.x)

/-! ### Execute: the effect of each instruction, in every state -/

/-- R72: Execute is a dispatch on the variant with the table's five effects, applied only after every fetch of the instruction
succeeded. -/
def Obligations.ExecuteAppliesTheTableEffect : Prop :=
  (∀ s : State,
    exec .halt s = .next { s with run := .halted } ∧
    (∀ v : Byte, exec (.loadAccumulatorImmediate v) s = .next (writeRegister .accumulator v s)) ∧
    exec .transferAccumulatorToIndex s = .next (writeRegister .indexX s.a s) ∧
    exec .incrementIndex s = .next (incrementRegister Config.incSource .indexX s) ∧
    (∀ b : Byte, ∃ t : State, exec (.unrecognized b) s = .next t ∧ t.run = .faulted ∧
      ∃ position : Offset, t.fault = .unimplementedOpcode b position)) ∧
  (∀ (s u : State) (i : Instr), s.run = .running → fetchInstr s = .decoded i u → step s = exec i u) ∧
  (∀ s u : State, s.run = .running → fetchInstr s = .raised u →
    step s = .next u ∧ u.a = s.a ∧ u.x = s.x ∧ u.p = s.p)

/-- 42_instr_system.md, Halt: in every state Halt completes; it ends the run and writes nothing else (the
run state is decision D7, log entry 6). -/
def Obligations.HaltEndsTheRunOnly : Prop :=
  ∀ s : State, exec .halt s = .next { s with run := .halted }

/-- 43_instr_data.md, LoadAccumulatorImmediate: in every state it completes with `A = value`, both flags from the value and the
reserved bits kept; nothing else changes. -/
def Obligations.LoadWritesTheAccumulator : Prop :=
  ∀ (v : Byte) (s : State), exec (.loadAccumulatorImmediate v) s =
    .next { s with a := v, p := (s.p &&& 0x7D#8) ||| (if v = 0 then 0x02#8 else 0x00#8) ||| (v &&& 0x80#8) }

/-- 43_instr_data.md, TransferAccumulatorToIndex: in every state it completes with `X = A`, both flags from that value and the
reserved bits kept; nothing else changes. -/
def Obligations.TransferCopiesAccumulatorToIndex : Prop :=
  ∀ s : State, exec .transferAccumulatorToIndex s =
    .next { s with x := s.a, p := (s.p &&& 0x7D#8) ||| (if s.a = 0 then 0x02#8 else 0x00#8) ||| (s.a &&& 0x80#8) }

/-- 44_instr_arith.md and decision D1 (log entry 1, the spec's own choice): in every state IncrementIndex completes with
`X = A + 1` modulo 256, both flags from that value and the reserved bits kept; nothing else changes. -/
def Obligations.IncrementIndexSetsIndexToAccumulatorPlusOne : Prop :=
  ∀ s : State, exec .incrementIndex s =
    .next { s with
      x := s.a + 1
      p := (s.p &&& 0x7D#8) ||| (if s.a + 1 = 0 then 0x02#8 else 0x00#8) ||| ((s.a + 1) &&& 0x80#8) }

/-- 42_instr_system.md, Unrecognized, with decision D5's record (log entry 5): in every state it completes by raising
UnimplementedOpcode with the byte and the offset `PC - 1`; no register, flag or program counter is written. -/
def Obligations.UnrecognizedRaisesUnimplementedOpcode : Prop :=
  ∀ (b : Byte) (s : State), exec (.unrecognized b) s =
    .next { s with fault := .unimplementedOpcode b (s.pc - 1), run := .faulted }

/-- Frame of the three register writers (10_state.md sections 1.1 to 1.3): each leaves unchanged every general register but
its destination, the reserved status bits (decision D10, log entry 8), the run state, the fault record, the host's side and
every byte of the program. -/
def Obligations.RegisterWritersFrame : Prop :=
  ∀ (i : Instr) (s t : State), exec i s = .next t →
    ((∃ v, i = .loadAccumulatorImmediate v) ∨ i = .transferAccumulatorToIndex ∨ i = .incrementIndex) →
    ((∃ v, i = .loadAccumulatorImmediate v) → t.x = s.x) ∧
    ((i = .transferAccumulatorToIndex ∨ i = .incrementIndex) → t.a = s.a) ∧
    t.p &&& 0x7D#8 = s.p &&& 0x7D#8 ∧ t.run = s.run ∧ t.fault = s.fault ∧ SameHostSide s t ∧ SameMemory s t

/-- Frame of Halt and Unrecognized (42_instr_system.md): no general register, no status bit, nothing of the host's
side and no byte of the program changes; Halt
leaves the fault record alone. -/
def Obligations.RunEndersFrame : Prop :=
  ∀ (i : Instr) (s t : State), exec i s = .next t → (i = .halt ∨ ∃ b, i = .unrecognized b) →
    t.a = s.a ∧ t.x = s.x ∧ t.p = s.p ∧ (i = .halt → t.fault = s.fault) ∧ SameHostSide s t ∧ SameMemory s t

/-! ### Encoding -/

/-- Words written out from 30_encoding.md decode to the instructions they stand for. -/
def Obligations.WrittenOutWordsDecode : Prop :=
  decode [0b00000000#8] = .instr .halt [] ∧
  decode [0b10101001#8, 0b11000000#8] = .instr (.loadAccumulatorImmediate 0xC0#8) [] ∧
  decode [0b10101010#8] = .instr .transferAccumulatorToIndex [] ∧
  decode [0b11101000#8] = .instr .incrementIndex [] ∧
  decode [0b11101010#8] = .instr (.unrecognized 0xEA#8) []

/-- R53: `decode_opcode` is the total function of byte 0 that the table gives, and exactly 252 values, in three ranges, are
Unrecognized. -/
def Obligations.DecodeOpcodeIsTheTable : Prop :=
  decodeOpcode 0x00#8 = .complete .halt ∧ decodeOpcode 0xA9#8 = .operandPending ∧
  decodeOpcode 0xAA#8 = .complete .transferAccumulatorToIndex ∧ decodeOpcode 0xE8#8 = .complete .incrementIndex ∧
  (∀ b : Byte, b ≠ 0x00#8 → b ≠ 0xA9#8 → b ≠ 0xAA#8 → b ≠ 0xE8#8 → decodeOpcode b = .complete (.unrecognized b)) ∧
  (∀ b : Byte, decodeOpcode b = .complete (.unrecognized b) ↔
    (0x01 ≤ b.toNat ∧ b.toNat ≤ 0xA8) ∨ (0xAB ≤ b.toNat ∧ b.toNat ≤ 0xE7) ∨ (0xE9 ≤ b.toNat ∧ b.toNat ≤ 0xFF)) ∧
  ((List.range 256).filter fun n =>
    decide (decodeOpcode (BitVec.ofNat 8 n) = .complete (.unrecognized (BitVec.ofNat 8 n)))).length = 252

/-- R48: an instruction is one or two bytes long, and the opcode byte alone determines the length: 0xA9 announces one operand
byte, every other byte none. -/
def Obligations.LengthFollowsFromTheOpcodeByte : Prop :=
  (∀ (b : Byte) (rest tail : List Byte) (i : Instr), decode (b :: rest) = .instr i tail →
    (i.length = 1 ∨ i.length = 2) ∧ (i.length = 2 ↔ b = 0xA9#8) ∧
    tail = (b :: rest).drop i.length ∧ i.length ≤ (b :: rest).length) ∧
  (∀ (b : Byte) (rest : List Byte), b ≠ 0xA9#8 → ∃ i : Instr, decode (b :: rest) = .instr i rest) ∧
  (∀ (v : Byte) (rest : List Byte), ∃ i : Instr, decode (0xA9#8 :: v :: rest) = .instr i rest)

/-- Decoding an encoded well-formed instruction gives it back, every operand byte at every value, whatever follows it
(30_encoding.md sections 1 to 4). -/
def Obligations.DecodeOfEncode : Prop :=
  ∀ (i : Instr) (rest : List Byte), i.wellFormed = true → decode (encode i ++ rest) = .instr i rest

/-- Every decoded instruction is well formed, and the bytes consumed are its encoding: no two encodings of one instruction
(30_encoding.md sections 1 to 4). -/
def Obligations.EncodeOfDecode : Prop :=
  ∀ (bytes rest : List Byte) (i : Instr), decode bytes = .instr i rest →
    i.wellFormed = true ∧ bytes = encode i ++ rest

/-- Decoding rejects a byte sequence exactly when a byte is missing (30_encoding.md section 3; the names of the two
rejections are the model's, log entry 15). -/
def Obligations.DecodeRejectsOnlyMissingBytes : Prop :=
  ∀ (bytes : List Byte) (e : DecodeError), decode bytes = .rejected e ↔
    (bytes = [] ∧ e = .missingOpcode) ∨ (bytes = [0xA9#8] ∧ e = .missingOperand)

/-- R54: every opcode byte outside the four is illegal and ends the run with UnimplementedOpcode, neither as a no-op nor as a
Halt; all 256 operand bytes of the load are legal. -/
def Obligations.IllegalOpcodeEndsTheRun : Prop :=
  (∀ (s : State) (b : Byte), s.run = .running → progRead s.prog s.pc = some b →
    b ≠ 0x00#8 → b ≠ 0xA9#8 → b ≠ 0xAA#8 → b ≠ 0xE8#8 →
    decodeOpcode b = .complete (.unrecognized b) ∧
    ∃ t : State, step s = .next t ∧ t.run = .faulted ∧ t.run ≠ .halted ∧
      ∃ position : Offset, t.fault = .unimplementedOpcode b position) ∧
  (∀ (v : Byte) (rest : List Byte), decode (0xA9#8 :: v :: rest) = .instr (.loadAccumulatorImmediate v) rest)

/-! ### The program space and fetching -/

/-- R33: the program space of a run holds byte `k` of the supplied sequence at offset `k` and nothing from its length on; it
does not change during the run; each run start may be given another. -/
def Obligations.ProgramSpaceHoldsTheSuppliedBytes : Prop :=
  (∀ (program : List Byte) (s : State) (k : Offset),
    progRead (runStart program s).prog k = program[k.toNat]?) ∧
  (∀ (program : List Byte) (s : State), (runStart program s).prog.len = program.length) ∧
  (∀ s t : State, s.run = .running → step s = .next t → t.prog = s.prog)

/-- 20_memory.md section 1 (the canonical form is the model's, log entry 12): in a program space of canonical form ProgRead
answers a byte exactly at the offsets below `L`. -/
def Obligations.ProgReadAnswersExactlyBelowLength : Prop :=
  ∀ (m : Memory) (k : Offset), m.wf = true → ((progRead m k).isSome = true ↔ k.toNat < m.len)

/-- R70: the opcode fetch. At `PC >= L` it raises OutOfBoundsFetch(PC), `PC` is not advanced, nothing else changes and the run
ends, before anything is decoded; below `L` it reads the byte at `PC` and advances `PC` by 1. -/
def Obligations.OpcodeFetch : Prop :=
  ∀ s : State, s.prog.wf = true →
    (s.prog.len ≤ s.pc.toNat →
      fetchByte s = .raised { s with fault := .outOfBoundsFetch s.pc, run := .faulted } ∧
      fetchInstr s = .raised { s with fault := .outOfBoundsFetch s.pc, run := .faulted } ∧
      (s.run = .running → step s = .next { s with fault := .outOfBoundsFetch s.pc, run := .faulted })) ∧
    (s.pc.toNat < s.prog.len →
      ∃ b : Byte, progRead s.prog s.pc = some b ∧ fetchByte s = .byte b { s with pc := s.pc + 1 })

/-- 41_fde_loop.md section 2 and decision D4 (log entry 4, the spec's own choice): when 0xA9 is the last byte of the program,
the step raises OutOfBoundsFetch at the operand's offset, keeps the advance made for the opcode byte, and writes no register. -/
def Obligations.MissingOperandFaultsAtItsOffset : Prop :=
  ∀ s : State, s.prog.wf = true → s.run = .running → progRead s.prog s.pc = some 0xA9#8 →
    s.pc.toNat + 1 = s.prog.len →
    step s = .next { s with pc := s.pc + 1, fault := .outOfBoundsFetch (s.pc + 1), run := .faulted }

/-- When the bytes at `PC` decode to an instruction, the step of a running machine is `exec` of it at the state whose `PC`
stands past its bytes (41_fde_loop.md sections 2 and 3; the step function of section 3 is the spec's own derivation). -/
def Obligations.StepRunsTheDecodedInstruction : Prop :=
  ∀ (s : State) (i : Instr) (rest : List Byte), s.run = .running →
    decode (bytesFrom s.prog maxInstrLength s.pc) = .instr i rest →
    i.wellFormed = true ∧ step s = exec i { s with pc := s.pc + BitVec.ofNat 16 i.length }

/-- 10_state.md section 1.3: fetching advances `PC` by the instruction's length, and no instruction writes `PC` in its Execute
phase. -/
def Obligations.PcAdvancesByTheLengthOnly : Prop :=
  (∀ (s u : State) (i : Instr), fetchInstr s = .decoded i u →
    u = { s with pc := s.pc + BitVec.ofNat 16 i.length }) ∧
  (∀ (i : Instr) (u t : State), exec i u = .next t → t.pc = u.pc)

/-- 30_encoding.md section 3: what is fetched depends on the program bytes at `PC` alone. Two states whose programs read the
same at their own `PC`, and at `PC + 1` where the byte at `PC` is 0xA9, fetch the same instruction or both raise, whatever
their registers, their `PC`, the rest of their programs, their history and the host's side are. -/
def Obligations.DecodingIgnoresTheRegisters : Prop :=
  ∀ s t : State, progRead t.prog t.pc = progRead s.prog s.pc →
    (progRead s.prog s.pc = some 0xA9#8 → progRead t.prog (t.pc + 1) = progRead s.prog (s.pc + 1)) →
    (∀ (i : Instr) (u : State), fetchInstr s = .decoded i u →
      fetchInstr t = .decoded i { t with pc := t.pc + BitVec.ofNat 16 i.length }) ∧
    (∀ u : State, fetchInstr s = .raised u → ∃ v : State, fetchInstr t = .raised v)

/-- 20_memory.md section 2 (R47, the spec's own derivation): bytes that are not fetched have no effect. A running state given
another program that reads the same at `PC`, and at `PC + 1` where the byte at `PC` is 0xA9 (the one opcode after which a second
byte is fetched), steps to the same state but for the program; so the byte after a Halt or after a fault's position is free. -/
def Obligations.UnfetchedBytesHaveNoEffect : Prop :=
  ∀ (s t : State) (m : Memory), s.run = .running → step s = .next t →
    progRead m s.pc = progRead s.prog s.pc →
    (progRead s.prog s.pc = some 0xA9#8 → progRead m (s.pc + 1) = progRead s.prog (s.pc + 1)) →
    step { s with prog := m } = .next { t with prog := m }

/-! ### The step and the run -/

/-- 41_fde_loop.md section 3 (R74, the spec's own derivation; with no run in progress the step is the host's turn, the model's
choice of log entry 9): the step is total. Every state has a next state, and so has every instruction in every state. -/
def Obligations.StepAlwaysAnswersANextState : Prop :=
  (∀ s : State, ∃ t : State, step s = .next t) ∧ (∀ (i : Instr) (s : State), ∃ t : State, exec i s = .next t)

/-- R73: after Execute the run is Halted exactly for Halt, Faulted exactly for Unrecognized, and goes on otherwise; no register
value has a say in it; and a run that ends in a step ends so, or in a fetch that failed before Execute. -/
def Obligations.TerminationTest : Prop :=
  (∀ (s u : State) (i : Instr), s.run = .running → fetchInstr s = .decoded i u →
    (∃ t : State, step s = .next t ∧ (t.run = .halted ↔ i = .halt) ∧ (t.run = .faulted ↔ ∃ b, i = .unrecognized b) ∧
      (t.run = .running ↔ i ≠ .halt ∧ ∀ b, i ≠ .unrecognized b)) ∧
    (∀ a x p : Byte, ∃ t' t : State, step { s with a := a, x := x, p := p } = .next t' ∧ step s = .next t ∧ t'.run = t.run)) ∧
  (∀ s t : State, s.run = .running → step s = .next t → t.run ≠ .running →
    (∃ (i : Instr) (u : State), fetchInstr s = .decoded i u ∧ (i = .halt ∨ ∃ b, i = .unrecognized b)) ∨
    (∃ u : State, fetchInstr s = .raised u))

/-- 41_fde_loop.md section 3 (R76, the spec's own derivation): a step that ends in normal completion met the byte 0x00 at
`PC`; no fault is recorded, `PC` is that offset plus 1, and `A`, `X`, `P` are as before. -/
def Obligations.StateAtNormalCompletion : Prop :=
  ∀ s t : State, Invariant s → s.run = .running → step s = .next t → t.run = .halted →
    progRead s.prog s.pc = some 0x00#8 ∧ Succeeded t ∧ t.pc.toNat = s.pc.toNat + 1 ∧
    t.a = s.a ∧ t.x = s.x ∧ t.p = s.p

/-- 60_exceptions.md sections 1 and 4 and 41_fde_loop.md section 3, with decisions D3 to D5 (log entries 3, 4, 5, the spec's own
choices): a faulting step writes none of `A`, `X`, `P`; the record is the byte and its offset with `PC` one past it, or the
offset of the failed fetch, which is `PC` and exactly `L`. -/
def Obligations.FaultingStepIsPrecise : Prop :=
  ∀ s t : State, Invariant s → s.run = .running → step s = .next t → t.run = .faulted →
    t.a = s.a ∧ t.x = s.x ∧ t.p = s.p ∧ t.prog = s.prog ∧
    ((∃ b : Byte, t.fault = .unimplementedOpcode b s.pc ∧ progRead s.prog s.pc = some b ∧
        b ∉ tableOpcodes ∧ t.pc = s.pc + 1) ∨
     (t.fault = .outOfBoundsFetch t.pc ∧ t.pc.toNat = s.prog.len ∧
        (t.pc = s.pc ∨ (progRead s.prog s.pc = some 0xA9#8 ∧ t.pc = s.pc + 1))))

/-- 10_state.md section 1.2 and decision D10 (log entry 8, the spec's own choice): no step of a run, faulting or not, changes a
reserved bit of `P`, whatever the bits hold. -/
def Obligations.ReservedBitsNeverChangeInARun : Prop :=
  ∀ s t : State, s.run = .running → step s = .next t →
    ∀ j ∈ [0, 2, 3, 4, 5, 6], t.p.getLsbD j = s.p.getLsbD j

/-- 10_state.md section 1.2: after a step that wrote a register the flags describe the value written, whatever they were; a step
that wrote none leaves `P` as it was. -/
def Obligations.FlagsDescribeTheRegisterWrittenLast : Prop :=
  ∀ s t u : State, ∀ i : Instr, s.run = .running → step s = .next t → fetchInstr s = .decoded i u →
    ((∃ v, i = .loadAccumulatorImmediate v) → FlagsDescribe t.a t) ∧
    (i = .transferAccumulatorToIndex ∨ i = .incrementIndex → FlagsDescribe t.x t) ∧
    (i = .halt ∨ (∃ b, i = .unrecognized b) → t.p = s.p)

/-- 10_state.md section 1.1: within a run `A` changes only by LoadAccumulatorImmediate, to its operand, and `X` only by
TransferAccumulatorToIndex and IncrementIndex. -/
def Obligations.RegistersChangeOnlyByTheirWriters : Prop :=
  ∀ s t : State, s.run = .running → step s = .next t →
    (t.a ≠ s.a → progRead s.prog s.pc = some 0xA9#8 ∧ progRead s.prog (s.pc + 1) = some t.a) ∧
    (t.x ≠ s.x → progRead s.prog s.pc = some 0xAA#8 ∨ progRead s.prog s.pc = some 0xE8#8)

/-- 10_state.md section 1.3 and 41_fde_loop.md section 3 (R21 and R79, the spec's own derivations; decision D2, log entry 2):
within a run `PC` never decreases, moves by at most 2, never exceeds
`L`, and moves whenever the run goes on; it does not wrap. -/
def Obligations.PcMovesForwardWithinTheProgram : Prop :=
  ∀ s t : State, Invariant s → s.run = .running → step s = .next t →
    s.pc.toNat ≤ t.pc.toNat ∧ t.pc.toNat ≤ s.pc.toNat + 2 ∧ t.pc.toNat ≤ s.prog.len ∧
    (t.run = .running → s.pc.toNat < t.pc.toNat)

/-- The invariant holds after reset (10_state.md section 3; no program at reset is the model's choice, log entry 12). -/
def Obligations.ResetMeetsTheInvariant : Prop := Invariant State.reset

/-- Every step, of the core or of the host, keeps the invariant: canonical program of at most 65535 bytes, a fault record
exactly when Faulted, and `PC` within the program during a run (R21 is the spec's own derivation; decisions D2, D5 and D7, log
entries 2, 5 and 6; the host's turn is the model's choice, log entry 9). -/
def Obligations.EveryStepKeepsTheInvariant : Prop := ∀ s t : State, Invariant s → step s = .next t → Invariant t

/-- 41_fde_loop.md section 3 (R79, the spec's own derivation): every run ends. From any running state that meets the invariant
the run is over within `L - PC + 1` steps, so within `L + 1` steps of its start, Halted or Faulted. -/
def Obligations.EveryRunEndsWithinItsBound : Prop :=
  ∀ s : State, Invariant s → s.run = .running →
    (runToEnd (s.prog.len - s.pc.toNat + 1) s).run = .halted ∨ (runToEnd (s.prog.len - s.pc.toNat + 1) s).run = .faulted

/-- 70_reset_and_hazards.md section 2 (R120, the spec's own derivation; the offsets are decision D5, log entry 5): whether a
run succeeds, and which fault at which offset ends it otherwise, is decided by one pass over the program's bytes, for every
program of admitted length and every start state. -/
def Obligations.OnePassOverTheBytesDecidesTheRun : Prop :=
  ∀ (program : List Byte) (s : State), program.length ≤ 65535 →
    (runToEnd (program.length + 1) (runStart program s)).fault = verdict program ∧
    ((runToEnd (program.length + 1) (runStart program s)).run = .halted ↔ verdict program = .none) ∧
    ((runToEnd (program.length + 1) (runStart program s)).run = .faulted ↔ verdict program ≠ .none)

/-- R122: two runs of the same program from equal `A`, `X`, `P` pass through and end in equal states, whatever the program
counter, the earlier runs and the host's requests; in particular from freshly constructed states. -/
def Obligations.RunsOfOneProgramAgree : Prop :=
  (∀ (program : List Byte) (s t : State) (n : Nat), s.a = t.a → s.x = t.x → s.p = t.p →
    SameCore (runToEnd n (runStart program s)) (runToEnd n (runStart program t))) ∧
  (∀ (program : List Byte) (s t : State) (n : Nat),
    SameCore (runToEnd n (runStart program (construct s))) (runToEnd n (runStart program (construct t))))

/-- 45_host_operations.md section 3 and decision D16 (log entry 10, the spec's own choice): while a run is in progress no host
request is served and the program does not change; and the step does not depend on what the host will ask for. -/
def Obligations.HostHasNoMoveDuringARun : Prop :=
  (∀ s t : State, s.run = .running → step s = .next t → SameHostSide s t ∧ t.prog = s.prog) ∧
  (∀ (s t : State) (r : List HostRequest) (o : List Observation), s.run = .running → step s = .next t →
    step { s with requests := r, observations := o } = .next { t with requests := r, observations := o })

/-! ### The host's transactions (the request list is the model's own: log entry 9) -/

/-- 45_host_operations.md section 1, Construct, with the model's request list (log entry 9): it is served whenever no run is in
progress and leaves the reset machine. -/
def Obligations.ConstructIsServedWhenNoRun : Prop :=
  ∀ (s : State) (rest : List HostRequest), s.run ≠ .running → s.requests = .construct :: rest →
    step s = .next { State.reset with requests := rest, observations := s.observations }

/-- 45_host_operations.md section 1, Preset, with the model's request list (log entry 9) and decision D9 (log entry 8): any
field, any value, whenever no run is in progress; nothing else changes and no flag is recomputed. -/
def Obligations.PresetWritesOneField : Prop :=
  ∀ (s : State) (rest : List HostRequest), s.run ≠ .running →
    (∀ v, s.requests = .preset (.a v) :: rest → step s = .next { s with a := v, requests := rest }) ∧
    (∀ v, s.requests = .preset (.x v) :: rest → step s = .next { s with x := v, requests := rest }) ∧
    (∀ v, s.requests = .preset (.p v) :: rest → step s = .next { s with p := v, requests := rest }) ∧
    (∀ v, s.requests = .preset (.pc v) :: rest → step s = .next { s with pc := v, requests := rest })

/-- 45_host_operations.md section 1, Run, with the model's request list (log entry 9) and decisions D2 and D8 (log entries 2
and 7): at most 65535 bytes start a run from Idle, Halted or Faulted alike; a longer program changes nothing. -/
def Obligations.RunStartsOrIsRefused : Prop :=
  ∀ (s : State) (program : List Byte) (rest : List HostRequest), s.run ≠ .running →
    s.requests = .run program :: rest →
    (program.length ≤ 65535 → step s = .next
      { s with pc := 0, fault := .none, run := .running, prog := Memory.ofBytes program, requests := rest }) ∧
    (65535 < program.length → step s = .next { s with requests := rest })

/-- 45_host_operations.md section 1, Observe, with the model's own lists (log entries 9 and 11): the host gets the four fields,
the two flags, the run state and the fault record, and nothing of the machine changes. -/
def Obligations.ObserveReadsWithoutSideEffect : Prop :=
  ∀ (s : State) (rest : List HostRequest), s.run ≠ .running → s.requests = .observe :: rest →
    step s = .next { s with
      requests := rest
      observations := s.observations ++
        [⟨s.a, s.x, s.p, s.pc, s.p &&& 0x02#8 != 0, s.p &&& 0x80#8 != 0, s.run, s.fault⟩] }

/-- 60_exceptions.md section 7, with the model's request list (log entry 9): with no run in progress and no request, every
field keeps its value. -/
def Obligations.NothingChangesWithoutARunOrARequest : Prop :=
  ∀ s : State, s.run ≠ .running → s.requests = [] → step s = .next s

/-- 41_fde_loop.md section 4, with decisions D2, D7 and D8 (log entries 2, 6 and 7) and the model's request list (log entry
9): the run state changes by the table's events and by nothing else. A running machine becomes Halted exactly by decoding
Halt, Faulted exactly by a fault raised in a fetch or by Unrecognized, and stays Running exactly by a register-writing
instruction. With no run in progress Construct makes it Idle, Run of at most 65535 bytes makes it Running, and without either
it stays. The table's row '(any), Construct, Idle' is read by log entry 10 (decision D16, R86 and R94: no Construct while
Running), so a running machine never becomes Idle. -/
def Obligations.RunStateChangesAsTheTableSays : Prop :=
  ∀ s t : State, step s = .next t →
    (s.run = .running →
      (t.run = .halted ↔ ∃ u : State, fetchInstr s = .decoded .halt u) ∧
      (t.run = .faulted ↔ (∃ u : State, fetchInstr s = .raised u) ∨
        ∃ (b : Byte) (u : State), fetchInstr s = .decoded (.unrecognized b) u) ∧
      (t.run = .running ↔ ∃ (i : Instr) (u : State), fetchInstr s = .decoded i u ∧
        ((∃ v, i = .loadAccumulatorImmediate v) ∨ i = .transferAccumulatorToIndex ∨ i = .incrementIndex)) ∧
      t.run ≠ .idle) ∧
    (s.run ≠ .running →
      (s.requests.head? = some .construct → t.run = .idle) ∧
      (∀ program : List Byte, s.requests.head? = some (.run program) → program.length ≤ 65535 → t.run = .running) ∧
      (s.requests.head? ≠ some .construct →
        (∀ program : List Byte, s.requests.head? = some (.run program) → 65535 < program.length) → t.run = s.run))

/-- 60_exceptions.md section 5 and decision D8 (log entry 7), with the model's request list (log entry 9): after a fault the
core never runs on by itself; the record and the Faulted state stay until a Construct or a Run, which clear it. -/
def Obligations.FaultPersistsUntilConstructOrRun : Prop :=
  ∀ s t : State, s.run = .faulted → step s = .next t →
    (t.run = .faulted ∧ t.fault = s.fault) ∨
    (t.fault = .none ∧ (s.requests.head? = some .construct ∨ ∃ program, s.requests.head? = some (.run program)))

/-- 45_host_operations.md sections 2 and 4 (port names: decision D11, log entry 14): the program port presents `PC`, the
register ports show the registers, and the fault ports tell the three records apart. -/
def Obligations.PortsShowTheState : Prop :=
  ∀ s : State,
    (portsOf s).progAddr = s.pc ∧ (portsOf s).progData = progRead s.prog s.pc ∧ (portsOf s).acc = s.a ∧
    (portsOf s).idxX = s.x ∧ (portsOf s).status = s.p ∧ (portsOf s).pc = s.pc ∧ (portsOf s).runState = s.run ∧
    (s.prog.wf = true → (portsOf s).progLen.toNat = s.prog.len) ∧
    (∀ t : State, (portsOf s).faultKind = (portsOf t).faultKind → (portsOf s).faultByte = (portsOf t).faultByte →
      (portsOf s).faultPos = (portsOf t).faultPos → s.fault = t.fault)
end

