-- ==== Sys2Proof/Laws/State.lean ====
section
/-! SUPPORT. One lemma per field per update of the state, so that no later proof unfolds a record update. -/

namespace Sys2Proof.Machine

@[simp] theorem writeFlag_a (f : Flag) (v : Bool) (s : State) : (writeFlag f v s).a = s.a := rfl
@[simp] theorem writeFlag_x (f : Flag) (v : Bool) (s : State) : (writeFlag f v s).x = s.x := rfl
@[simp] theorem writeFlag_p (f : Flag) (v : Bool) (s : State) : (writeFlag f v s).p = if v then s.p ||| f.mask else s.p &&& ~~~f.mask := rfl
@[simp] theorem writeFlag_pc (f : Flag) (v : Bool) (s : State) : (writeFlag f v s).pc = s.pc := rfl
@[simp] theorem writeFlag_run (f : Flag) (v : Bool) (s : State) : (writeFlag f v s).run = s.run := rfl
@[simp] theorem writeFlag_fault (f : Flag) (v : Bool) (s : State) : (writeFlag f v s).fault = s.fault := rfl
@[simp] theorem writeFlag_prog (f : Flag) (v : Bool) (s : State) : (writeFlag f v s).prog = s.prog := rfl
@[simp] theorem writeFlag_requests (f : Flag) (v : Bool) (s : State) : (writeFlag f v s).requests = s.requests := rfl
@[simp] theorem writeFlag_observations (f : Flag) (v : Bool) (s : State) : (writeFlag f v s).observations = s.observations := rfl

@[simp] theorem writeFlags_a (v : Byte) (s : State) : (writeFlags v s).a = s.a := rfl
@[simp] theorem writeFlags_x (v : Byte) (s : State) : (writeFlags v s).x = s.x := rfl
@[simp] theorem writeFlags_pc (v : Byte) (s : State) : (writeFlags v s).pc = s.pc := rfl
@[simp] theorem writeFlags_run (v : Byte) (s : State) : (writeFlags v s).run = s.run := rfl
@[simp] theorem writeFlags_fault (v : Byte) (s : State) : (writeFlags v s).fault = s.fault := rfl
@[simp] theorem writeFlags_prog (v : Byte) (s : State) : (writeFlags v s).prog = s.prog := rfl
@[simp] theorem writeFlags_requests (v : Byte) (s : State) : (writeFlags v s).requests = s.requests := rfl
@[simp] theorem writeFlags_observations (v : Byte) (s : State) : (writeFlags v s).observations = s.observations := rfl

@[simp] theorem storeReg_accumulator_a (v : Byte) (s : State) : (storeReg .accumulator v s).a = v := rfl
@[simp] theorem storeReg_accumulator_x (v : Byte) (s : State) : (storeReg .accumulator v s).x = s.x := rfl
@[simp] theorem storeReg_accumulator_p (v : Byte) (s : State) : (storeReg .accumulator v s).p = s.p := rfl
@[simp] theorem storeReg_accumulator_pc (v : Byte) (s : State) : (storeReg .accumulator v s).pc = s.pc := rfl
@[simp] theorem storeReg_accumulator_run (v : Byte) (s : State) : (storeReg .accumulator v s).run = s.run := rfl
@[simp] theorem storeReg_accumulator_fault (v : Byte) (s : State) : (storeReg .accumulator v s).fault = s.fault := rfl
@[simp] theorem storeReg_accumulator_prog (v : Byte) (s : State) : (storeReg .accumulator v s).prog = s.prog := rfl
@[simp] theorem storeReg_accumulator_requests (v : Byte) (s : State) : (storeReg .accumulator v s).requests = s.requests := rfl
@[simp] theorem storeReg_accumulator_observations (v : Byte) (s : State) : (storeReg .accumulator v s).observations = s.observations := rfl

@[simp] theorem storeReg_indexX_a (v : Byte) (s : State) : (storeReg .indexX v s).a = s.a := rfl
@[simp] theorem storeReg_indexX_x (v : Byte) (s : State) : (storeReg .indexX v s).x = v := rfl
@[simp] theorem storeReg_indexX_p (v : Byte) (s : State) : (storeReg .indexX v s).p = s.p := rfl
@[simp] theorem storeReg_indexX_pc (v : Byte) (s : State) : (storeReg .indexX v s).pc = s.pc := rfl
@[simp] theorem storeReg_indexX_run (v : Byte) (s : State) : (storeReg .indexX v s).run = s.run := rfl
@[simp] theorem storeReg_indexX_fault (v : Byte) (s : State) : (storeReg .indexX v s).fault = s.fault := rfl
@[simp] theorem storeReg_indexX_prog (v : Byte) (s : State) : (storeReg .indexX v s).prog = s.prog := rfl
@[simp] theorem storeReg_indexX_requests (v : Byte) (s : State) : (storeReg .indexX v s).requests = s.requests := rfl
@[simp] theorem storeReg_indexX_observations (v : Byte) (s : State) : (storeReg .indexX v s).observations = s.observations := rfl

@[simp] theorem writeRegister_accumulator_a (v : Byte) (s : State) : (writeRegister .accumulator v s).a = v := rfl
@[simp] theorem writeRegister_accumulator_x (v : Byte) (s : State) : (writeRegister .accumulator v s).x = s.x := rfl
@[simp] theorem writeRegister_accumulator_pc (v : Byte) (s : State) : (writeRegister .accumulator v s).pc = s.pc := rfl
@[simp] theorem writeRegister_accumulator_run (v : Byte) (s : State) : (writeRegister .accumulator v s).run = s.run := rfl
@[simp] theorem writeRegister_accumulator_fault (v : Byte) (s : State) : (writeRegister .accumulator v s).fault = s.fault := rfl
@[simp] theorem writeRegister_accumulator_prog (v : Byte) (s : State) : (writeRegister .accumulator v s).prog = s.prog := rfl
@[simp] theorem writeRegister_accumulator_requests (v : Byte) (s : State) : (writeRegister .accumulator v s).requests = s.requests := rfl
@[simp] theorem writeRegister_accumulator_observations (v : Byte) (s : State) : (writeRegister .accumulator v s).observations = s.observations := rfl

@[simp] theorem writeRegister_indexX_a (v : Byte) (s : State) : (writeRegister .indexX v s).a = s.a := rfl
@[simp] theorem writeRegister_indexX_x (v : Byte) (s : State) : (writeRegister .indexX v s).x = v := rfl
@[simp] theorem writeRegister_indexX_pc (v : Byte) (s : State) : (writeRegister .indexX v s).pc = s.pc := rfl
@[simp] theorem writeRegister_indexX_run (v : Byte) (s : State) : (writeRegister .indexX v s).run = s.run := rfl
@[simp] theorem writeRegister_indexX_fault (v : Byte) (s : State) : (writeRegister .indexX v s).fault = s.fault := rfl
@[simp] theorem writeRegister_indexX_prog (v : Byte) (s : State) : (writeRegister .indexX v s).prog = s.prog := rfl
@[simp] theorem writeRegister_indexX_requests (v : Byte) (s : State) : (writeRegister .indexX v s).requests = s.requests := rfl
@[simp] theorem writeRegister_indexX_observations (v : Byte) (s : State) : (writeRegister .indexX v s).observations = s.observations := rfl

@[simp] theorem incrementRegister_indexX_a (src : IncSource) (s : State) : (incrementRegister src .indexX s).a = s.a := rfl
@[simp] theorem incrementRegister_indexX_x (src : IncSource) (s : State) : (incrementRegister src .indexX s).x = incrementOperand src .indexX s + 1 := rfl
@[simp] theorem incrementRegister_indexX_pc (src : IncSource) (s : State) : (incrementRegister src .indexX s).pc = s.pc := rfl
@[simp] theorem incrementRegister_indexX_run (src : IncSource) (s : State) : (incrementRegister src .indexX s).run = s.run := rfl
@[simp] theorem incrementRegister_indexX_fault (src : IncSource) (s : State) : (incrementRegister src .indexX s).fault = s.fault := rfl
@[simp] theorem incrementRegister_indexX_prog (src : IncSource) (s : State) : (incrementRegister src .indexX s).prog = s.prog := rfl
@[simp] theorem incrementRegister_indexX_requests (src : IncSource) (s : State) : (incrementRegister src .indexX s).requests = s.requests := rfl
@[simp] theorem incrementRegister_indexX_observations (src : IncSource) (s : State) : (incrementRegister src .indexX s).observations = s.observations := rfl

@[simp] theorem advancePc_a (n : Nat) (s : State) : (advancePc n s).a = s.a := rfl
@[simp] theorem advancePc_x (n : Nat) (s : State) : (advancePc n s).x = s.x := rfl
@[simp] theorem advancePc_p (n : Nat) (s : State) : (advancePc n s).p = s.p := rfl
@[simp] theorem advancePc_pc (n : Nat) (s : State) : (advancePc n s).pc = s.pc + BitVec.ofNat 16 n := rfl
@[simp] theorem advancePc_run (n : Nat) (s : State) : (advancePc n s).run = s.run := rfl
@[simp] theorem advancePc_fault (n : Nat) (s : State) : (advancePc n s).fault = s.fault := rfl
@[simp] theorem advancePc_prog (n : Nat) (s : State) : (advancePc n s).prog = s.prog := rfl
@[simp] theorem advancePc_requests (n : Nat) (s : State) : (advancePc n s).requests = s.requests := rfl
@[simp] theorem advancePc_observations (n : Nat) (s : State) : (advancePc n s).observations = s.observations := rfl

@[simp] theorem raise_a (f : FaultRecord) (s : State) : (raise f s).a = s.a := rfl
@[simp] theorem raise_x (f : FaultRecord) (s : State) : (raise f s).x = s.x := rfl
@[simp] theorem raise_p (f : FaultRecord) (s : State) : (raise f s).p = s.p := rfl
@[simp] theorem raise_pc (f : FaultRecord) (s : State) : (raise f s).pc = s.pc := rfl
@[simp] theorem raise_run (f : FaultRecord) (s : State) : (raise f s).run = .faulted := rfl
@[simp] theorem raise_fault (f : FaultRecord) (s : State) : (raise f s).fault = f := rfl
@[simp] theorem raise_prog (f : FaultRecord) (s : State) : (raise f s).prog = s.prog := rfl
@[simp] theorem raise_requests (f : FaultRecord) (s : State) : (raise f s).requests = s.requests := rfl
@[simp] theorem raise_observations (f : FaultRecord) (s : State) : (raise f s).observations = s.observations := rfl

@[simp] theorem complete_a (s : State) : (complete s).a = s.a := rfl
@[simp] theorem complete_x (s : State) : (complete s).x = s.x := rfl
@[simp] theorem complete_p (s : State) : (complete s).p = s.p := rfl
@[simp] theorem complete_pc (s : State) : (complete s).pc = s.pc := rfl
@[simp] theorem complete_run (s : State) : (complete s).run = .halted := rfl
@[simp] theorem complete_fault (s : State) : (complete s).fault = s.fault := rfl
@[simp] theorem complete_prog (s : State) : (complete s).prog = s.prog := rfl
@[simp] theorem complete_requests (s : State) : (complete s).requests = s.requests := rfl
@[simp] theorem complete_observations (s : State) : (complete s).observations = s.observations := rfl

@[simp] theorem runStart_a (program : List Byte) (s : State) : (runStart program s).a = s.a := rfl
@[simp] theorem runStart_x (program : List Byte) (s : State) : (runStart program s).x = s.x := rfl
@[simp] theorem runStart_p (program : List Byte) (s : State) : (runStart program s).p = s.p := rfl
@[simp] theorem runStart_pc (program : List Byte) (s : State) : (runStart program s).pc = 0 := rfl
@[simp] theorem runStart_run (program : List Byte) (s : State) : (runStart program s).run = .running := rfl
@[simp] theorem runStart_fault (program : List Byte) (s : State) : (runStart program s).fault = .none := rfl
@[simp] theorem runStart_prog (program : List Byte) (s : State) : (runStart program s).prog = Memory.ofBytes program := rfl
@[simp] theorem runStart_requests (program : List Byte) (s : State) : (runStart program s).requests = s.requests := rfl
@[simp] theorem runStart_observations (program : List Byte) (s : State) : (runStart program s).observations = s.observations := rfl

@[simp] theorem preset_a_a (v : Byte) (s : State) : (preset (.a v) s).a = v := rfl
@[simp] theorem preset_a_x (v : Byte) (s : State) : (preset (.a v) s).x = s.x := rfl
@[simp] theorem preset_a_p (v : Byte) (s : State) : (preset (.a v) s).p = s.p := rfl
@[simp] theorem preset_a_pc (v : Byte) (s : State) : (preset (.a v) s).pc = s.pc := rfl
@[simp] theorem preset_a_run (v : Byte) (s : State) : (preset (.a v) s).run = s.run := rfl
@[simp] theorem preset_a_fault (v : Byte) (s : State) : (preset (.a v) s).fault = s.fault := rfl
@[simp] theorem preset_a_prog (v : Byte) (s : State) : (preset (.a v) s).prog = s.prog := rfl
@[simp] theorem preset_a_requests (v : Byte) (s : State) : (preset (.a v) s).requests = s.requests := rfl
@[simp] theorem preset_a_observations (v : Byte) (s : State) : (preset (.a v) s).observations = s.observations := rfl

@[simp] theorem preset_x_a (v : Byte) (s : State) : (preset (.x v) s).a = s.a := rfl
@[simp] theorem preset_x_x (v : Byte) (s : State) : (preset (.x v) s).x = v := rfl
@[simp] theorem preset_x_p (v : Byte) (s : State) : (preset (.x v) s).p = s.p := rfl
@[simp] theorem preset_x_pc (v : Byte) (s : State) : (preset (.x v) s).pc = s.pc := rfl
@[simp] theorem preset_x_run (v : Byte) (s : State) : (preset (.x v) s).run = s.run := rfl
@[simp] theorem preset_x_fault (v : Byte) (s : State) : (preset (.x v) s).fault = s.fault := rfl
@[simp] theorem preset_x_prog (v : Byte) (s : State) : (preset (.x v) s).prog = s.prog := rfl
@[simp] theorem preset_x_requests (v : Byte) (s : State) : (preset (.x v) s).requests = s.requests := rfl
@[simp] theorem preset_x_observations (v : Byte) (s : State) : (preset (.x v) s).observations = s.observations := rfl

@[simp] theorem preset_p_a (v : Byte) (s : State) : (preset (.p v) s).a = s.a := rfl
@[simp] theorem preset_p_x (v : Byte) (s : State) : (preset (.p v) s).x = s.x := rfl
@[simp] theorem preset_p_p (v : Byte) (s : State) : (preset (.p v) s).p = v := rfl
@[simp] theorem preset_p_pc (v : Byte) (s : State) : (preset (.p v) s).pc = s.pc := rfl
@[simp] theorem preset_p_run (v : Byte) (s : State) : (preset (.p v) s).run = s.run := rfl
@[simp] theorem preset_p_fault (v : Byte) (s : State) : (preset (.p v) s).fault = s.fault := rfl
@[simp] theorem preset_p_prog (v : Byte) (s : State) : (preset (.p v) s).prog = s.prog := rfl
@[simp] theorem preset_p_requests (v : Byte) (s : State) : (preset (.p v) s).requests = s.requests := rfl
@[simp] theorem preset_p_observations (v : Byte) (s : State) : (preset (.p v) s).observations = s.observations := rfl

@[simp] theorem preset_pc_a (v : Offset) (s : State) : (preset (.pc v) s).a = s.a := rfl
@[simp] theorem preset_pc_x (v : Offset) (s : State) : (preset (.pc v) s).x = s.x := rfl
@[simp] theorem preset_pc_p (v : Offset) (s : State) : (preset (.pc v) s).p = s.p := rfl
@[simp] theorem preset_pc_pc (v : Offset) (s : State) : (preset (.pc v) s).pc = v := rfl
@[simp] theorem preset_pc_run (v : Offset) (s : State) : (preset (.pc v) s).run = s.run := rfl
@[simp] theorem preset_pc_fault (v : Offset) (s : State) : (preset (.pc v) s).fault = s.fault := rfl
@[simp] theorem preset_pc_prog (v : Offset) (s : State) : (preset (.pc v) s).prog = s.prog := rfl
@[simp] theorem preset_pc_requests (v : Offset) (s : State) : (preset (.pc v) s).requests = s.requests := rfl
@[simp] theorem preset_pc_observations (v : Offset) (s : State) : (preset (.pc v) s).observations = s.observations := rfl

@[simp] theorem observe_a (s : State) : (observe s).a = s.a := rfl
@[simp] theorem observe_x (s : State) : (observe s).x = s.x := rfl
@[simp] theorem observe_p (s : State) : (observe s).p = s.p := rfl
@[simp] theorem observe_pc (s : State) : (observe s).pc = s.pc := rfl
@[simp] theorem observe_run (s : State) : (observe s).run = s.run := rfl
@[simp] theorem observe_fault (s : State) : (observe s).fault = s.fault := rfl
@[simp] theorem observe_prog (s : State) : (observe s).prog = s.prog := rfl
@[simp] theorem observe_requests (s : State) : (observe s).requests = s.requests := rfl
@[simp] theorem observe_observations (s : State) : (observe s).observations = s.observations ++ [observation s] := rfl

@[simp] theorem construct_a (s : State) : (construct s).a = 0 := rfl
@[simp] theorem construct_x (s : State) : (construct s).x = 0 := rfl
@[simp] theorem construct_p (s : State) : (construct s).p = 0 := rfl
@[simp] theorem construct_pc (s : State) : (construct s).pc = 0 := rfl
@[simp] theorem construct_run (s : State) : (construct s).run = .idle := rfl
@[simp] theorem construct_fault (s : State) : (construct s).fault = .none := rfl
@[simp] theorem construct_prog (s : State) : (construct s).prog = [] := rfl
@[simp] theorem construct_requests (s : State) : (construct s).requests = s.requests := rfl
@[simp] theorem construct_observations (s : State) : (construct s).observations = s.observations := rfl

end Sys2Proof.Machine
end

