-- ==== Sys2Proof/Laws/Memory.lean ====
section
/-! SUPPORT. The program space: its canonical form is kept by the one operation that makes a program space, and held at
reset; and in that form a byte is there exactly below `L`. -/

namespace Sys2Proof.Machine

@[simp] theorem Memory.len_ofBytesFrom (bytes : List Byte) : ∀ k, (Memory.ofBytesFrom k bytes).len = bytes.length := by
  induction bytes with
  | nil => intro k; rfl
  | cons b rest ih => intro k; simpa [Memory.ofBytesFrom, Memory.len] using ih (k + 1)

@[simp] theorem Memory.len_ofBytes (bytes : List Byte) : (Memory.ofBytes bytes).len = bytes.length :=
  Memory.len_ofBytesFrom bytes 0

theorem Memory.contiguousFrom_ofBytesFrom (bytes : List Byte) :
    ∀ k, Memory.contiguousFrom k (Memory.ofBytesFrom k bytes) = true := by
  induction bytes with
  | nil => intro k; rfl
  | cons b rest ih => intro k; simp [Memory.ofBytesFrom, Memory.contiguousFrom, ih]

/-- A program of admitted length is laid out in canonical form (00_scope.md R5). -/
theorem Memory.wf_ofBytes (bytes : List Byte) (h : bytes.length ≤ Config.maxProgramLen) :
    (Memory.ofBytes bytes).wf = true := by
  simp [Memory.wf, h, Memory.ofBytes, Memory.contiguousFrom_ofBytesFrom]

theorem Memory.wf_reset : State.reset.prog.wf = true := by decide

theorem Memory.wf_len {m : Memory} (h : m.wf = true) : m.len ≤ 65535 := by
  simp only [Memory.wf, Bool.and_eq_true, decide_eq_true_eq] at h
  exact h.2

/-- Contiguous cells rise strictly from their first offset on: the offsets listed are exactly `k` to `k + L - 1`. -/
theorem Memory.contiguousFrom_keys (m : Memory) :
    ∀ k, Memory.contiguousFrom k m = true → m.map Prod.fst = List.range' k m.length := by
  induction m with
  | nil => intro k _; rfl
  | cons c rest ih =>
    intro k h
    simp only [Memory.contiguousFrom, Bool.and_eq_true, beq_iff_eq] at h
    simp [List.range'_succ, ih (k + 1) h.2, h.1]

/-- The canonical form is strictly rising, so a program space is one list. -/
theorem Memory.wf_strictly_rising {m : Memory} (h : m.wf = true) : (m.map Prod.fst).Pairwise (· < ·) := by
  simp only [Memory.wf, Bool.and_eq_true] at h
  rw [Memory.contiguousFrom_keys m 0 h.1]
  exact List.pairwise_lt_range'

theorem Memory.read_isSome_from (m : Memory) :
    ∀ k, Memory.contiguousFrom k m = true → ∀ j, (m.read j).isSome = true ↔ k ≤ j ∧ j < k + m.length := by
  induction m with
  | nil => intro k _ j; simp [Memory.read, Memory.unlisted]
  | cons c rest ih =>
    intro k h j
    simp only [Memory.contiguousFrom, Bool.and_eq_true, beq_iff_eq] at h
    obtain ⟨h0, h1⟩ := h
    by_cases hj : c.1 = j
    · simp [Memory.read, hj]; omega
    · have := ih (k + 1) h1 j
      simp only [Memory.read, hj, if_false, List.length_cons]
      rw [this]; omega

end Sys2Proof.Machine
end

