-- ==== Sys2Proof/Laws/Ops.lean ====
section
/-! SUPPORT. One lemma per shared operation over registers and flags, which says everything it does. -/

namespace Sys2Proof.Machine

/-- Bit 1 is the Zero flag (10_state.md R17). -/
theorem readFlag_zero (s : State) : readFlag .zero s = s.p.getLsbD 1 := by
  have h : ∀ p : Byte, ((p &&& 0x02#8) != 0) = p.getLsbD 1 := by decide
  exact h s.p

/-- Bit 7 is the Negative flag (10_state.md R18). -/
theorem readFlag_negative (s : State) : readFlag .negative s = s.p.getLsbD 7 := by
  have h : ∀ p : Byte, ((p &&& 0x80#8) != 0) = p.getLsbD 7 := by decide
  exact h s.p

theorem negativeOf_eq (v : Byte) : negativeOf v = v.getLsbD 7 := by
  have h : ∀ p : Byte, ((p &&& 0x80#8) != 0) = p.getLsbD 7 := by decide
  exact h v

/-- A value is never both zero and negative (40_register_file_ops.md R62). -/
theorem negativeOf_zero : negativeOf 0 = false := by decide

/-- The status byte by its two flags: the one assignment of R61 with the flags as Booleans. -/
theorem statusAfter_eq (p v : Byte) :
    statusAfter p v = (p &&& 0x7D#8) ||| (if v == 0 then 0x02#8 else 0#8) ||| (if v.getLsbD 7 then 0x80#8 else 0#8) := by
  have bit : ∀ v : Byte, v &&& 0x80#8 = if v.getLsbD 7 then 0x80#8 else 0#8 := by decide
  rw [← bit v]
  cases h : v == 0
  · have hv : v ≠ 0 := by simpa using h
    simp only [statusAfter, if_neg hv]; rfl
  · have hv : v = 0 := by simpa using h
    simp only [statusAfter, if_pos hv]; rfl

/-- The status byte after both flags are recomputed, in the one assignment of R61. -/
theorem writeFlags_p (v : Byte) (s : State) : (writeFlags v s).p = statusAfter s.p v := by
  have bits : ∀ (z n : Bool) (p : Byte),
      (if n then (if z then p ||| 0x02#8 else p &&& ~~~0x02#8) ||| 0x80#8
        else (if z then p ||| 0x02#8 else p &&& ~~~0x02#8) &&& ~~~0x80#8) =
      (p &&& 0x7D#8) ||| (if z then 0x02#8 else 0#8) ||| (if n then 0x80#8 else 0#8) := by decide
  rw [statusAfter_eq, ← bits]
  simp only [writeFlags, writeFlag_p, negativeOf_eq, zeroOf]
  rfl

/-- `write_register` as one record update, for either target (R61). -/
theorem writeRegister_accumulator_eq (v : Byte) (s : State) :
    writeRegister .accumulator v s = { s with a := v, p := statusAfter s.p v } := by
  have h := writeFlags_p v (storeReg .accumulator v s)
  simp only [storeReg_accumulator_p] at h
  rw [← h]; rfl

theorem writeRegister_indexX_eq (v : Byte) (s : State) :
    writeRegister .indexX v s = { s with x := v, p := statusAfter s.p v } := by
  have h := writeFlags_p v (storeReg .indexX v s)
  simp only [storeReg_indexX_p] at h
  rw [← h]; rfl

theorem writeRegister_p (r : Reg) (v : Byte) (s : State) : (writeRegister r v s).p = statusAfter s.p v := by
  cases r
  · rw [writeRegister_accumulator_eq]
  · rw [writeRegister_indexX_eq]

/-- The reserved bits come through the recomputation of the flags (10_state.md R19). -/
theorem statusAfter_reserved (p v : Byte) : statusAfter p v &&& reservedMask = p &&& reservedMask := by
  have bits : ∀ (z n : Bool) (p : Byte),
      ((p &&& 0x7D#8) ||| (if z then 0x02#8 else 0#8) ||| (if n then 0x80#8 else 0#8)) &&& 0x7D#8 = p &&& 0x7D#8 := by decide
  rw [statusAfter_eq]; exact bits _ _ p

/-- The Zero bit of the recomputed status (R61). -/
theorem statusAfter_zero (p v : Byte) : (statusAfter p v).getLsbD 1 = (v == 0) := by
  have bits : ∀ (z n : Bool) (p : Byte),
      ((p &&& 0x7D#8) ||| (if z then 0x02#8 else 0#8) ||| (if n then 0x80#8 else 0#8)).getLsbD 1 = z := by decide
  rw [statusAfter_eq]; exact bits _ _ p

/-- The Negative bit of the recomputed status (R61). -/
theorem statusAfter_negative (p v : Byte) : (statusAfter p v).getLsbD 7 = v.getLsbD 7 := by
  have bits : ∀ (z n : Bool) (p : Byte),
      ((p &&& 0x7D#8) ||| (if z then 0x02#8 else 0#8) ||| (if n then 0x80#8 else 0#8)).getLsbD 7 = n := by decide
  rw [statusAfter_eq]; exact bits _ _ p

/-- The flags after `write_register` are those of the value written, whatever came before (R61, R62). -/
theorem readFlag_writeRegister_zero (r : Reg) (v : Byte) (s : State) :
    readFlag .zero (writeRegister r v s) = (v == 0) := by
  rw [readFlag_zero, writeRegister_p, statusAfter_zero]

theorem readFlag_writeRegister_negative (r : Reg) (v : Byte) (s : State) :
    readFlag .negative (writeRegister r v s) = v.getLsbD 7 := by
  rw [readFlag_negative, writeRegister_p, statusAfter_negative]

end Sys2Proof.Machine
end

