-- ==== Sys2Proof/Laws/PerInstr.lean ====
section
/-! SUPPORT. The family `Encoding` of statements about an instruction as syntax: its encoding has its length, one or two bytes,
and two exactly for the load (30_encoding.md R48). -/

namespace Sys2Proof.Laws.Encoding

/-- The bytes written for the instruction are as many as its length says, one or two, and two only where the opcode byte is
0xA9 (R48). -/
def Statement (i : Instr) : Prop :=
  (encode i).length = i.length ∧ 1 ≤ i.length ∧ i.length ≤ maxInstrLength ∧
    (i.wellFormed = true → ((encode i).head? = some 0xA9#8 ↔ i.length = 2))

theorem halt : Statement .halt := by
  simp [Statement, encode, Instr.length, maxInstrLength]

theorem loadAccumulatorImmediate (value : Byte) : Statement (.loadAccumulatorImmediate value) := by
  simp [Statement, encode, Instr.length, maxInstrLength]

theorem transferAccumulatorToIndex : Statement .transferAccumulatorToIndex := by
  simp [Statement, encode, Instr.length, maxInstrLength]

theorem incrementIndex : Statement .incrementIndex := by
  simp [Statement, encode, Instr.length, maxInstrLength]

theorem unrecognized (rawByte : Byte) : Statement (.unrecognized rawByte) := by
  simp [Statement, encode, Instr.length, maxInstrLength, Instr.wellFormed, tableOpcodes]
  intro _ h _ _
  exact h

end Sys2Proof.Laws.Encoding
end

