-- ==== Sys2Proof/Laws/Step.lean ====
section
/-! SUPPORT. What fetching, executing and stepping can do, each said once: claims cite these instead of unfolding. -/

namespace Sys2Proof.Machine

/-- The two things fetching a byte can do (41_fde_loop.md R70). -/
theorem fetchByte_of_some {s : State} {b : Byte} (h : progRead s.prog s.pc = some b) :
    fetchByte s = .byte b (advancePc 1 s) := by
  simp [fetchByte, h]

theorem fetchByte_of_none {s : State} (h : progRead s.prog s.pc = none) :
    fetchByte s = .raised (raise (.outOfBoundsFetch s.pc) s) := by
  simp [fetchByte, h]

theorem fetchByte_byte {s t : State} {b : Byte} (h : fetchByte s = .byte b t) :
    progRead s.prog s.pc = some b ∧ t = advancePc 1 s := by
  unfold fetchByte at h
  split at h
  · rename_i v hv
    simp only [ByteFetch.byte.injEq] at h
    exact ⟨h.1 ▸ hv, h.2.symm⟩
  · cases h

theorem fetchByte_raised {s t : State} (h : fetchByte s = .raised t) :
    progRead s.prog s.pc = none ∧ t = raise (.outOfBoundsFetch s.pc) s := by
  unfold fetchByte at h
  split at h
  · cases h
  · rename_i hv
    simp only [ByteFetch.raised.injEq] at h
    exact ⟨hv, h.symm⟩

/-- What the decoder makes of a byte is either complete and one byte long, or the pending load (30_encoding.md R48, R53). -/
theorem decodeOpcode_complete_length {b : Byte} {i : Instr} (h : decodeOpcode b = .complete i) : i.length = 1 := by
  unfold decodeOpcode at h
  (repeat' split at h) <;> first | (cases h; done) | (cases h; rfl)

theorem decodeOpcode_pending_iff (b : Byte) : decodeOpcode b = .operandPending ↔ b = 0xA9#8 := by
  unfold decodeOpcode
  (repeat' split) <;> simp_all

/-- Every way to fetch an instruction: the bytes it is read from and where `PC` then stands (R70, R71). -/
theorem fetchInstr_decoded {s u : State} {i : Instr} (h : fetchInstr s = .decoded i u) :
    u = advancePc i.length s ∧
    ((∃ b, progRead s.prog s.pc = some b ∧ decodeOpcode b = .complete i) ∨
     (∃ v, progRead s.prog s.pc = some 0xA9#8 ∧ progRead s.prog (s.pc + 1) = some v ∧
       i = .loadAccumulatorImmediate v)) := by
  unfold fetchInstr at h
  split at h
  · cases h
  · rename_i b t hb
    obtain ⟨hr, rfl⟩ := fetchByte_byte hb
    split at h
    · rename_i j hj
      cases h
      exact ⟨by rw [decodeOpcode_complete_length hj], .inl ⟨b, hr, hj⟩⟩
    · rename_i hp
      obtain rfl := (decodeOpcode_pending_iff b).mp hp
      split at h
      · cases h
      · rename_i v w hv
        obtain ⟨hr2, rfl⟩ := fetchByte_byte hv
        cases h
        refine ⟨?_, .inr ⟨v, hr, hr2, rfl⟩⟩
        simp [advancePc, operandInstr, Instr.length, BitVec.add_assoc]

/-- Every way a fetch raises: no opcode byte, or no operand byte after 0xA9 (60_exceptions.md R100, R103). -/
theorem fetchInstr_raised {s t : State} (h : fetchInstr s = .raised t) :
    (progRead s.prog s.pc = none ∧ t = raise (.outOfBoundsFetch s.pc) s) ∨
    (progRead s.prog s.pc = some 0xA9#8 ∧ progRead s.prog (s.pc + 1) = none ∧
      t = raise (.outOfBoundsFetch (s.pc + 1)) (advancePc 1 s)) := by
  unfold fetchInstr at h
  split at h
  · rename_i w hw
    cases h
    exact .inl (fetchByte_raised hw)
  · rename_i b w hb
    obtain ⟨hr, rfl⟩ := fetchByte_byte hb
    split at h
    · cases h
    · rename_i hp
      obtain rfl := (decodeOpcode_pending_iff b).mp hp
      split at h
      · rename_i z hz
        cases h
        obtain ⟨hr2, rfl⟩ := fetchByte_raised hz
        exact .inr ⟨hr, hr2, rfl⟩
      · cases h

/-- Everything Execute can do (41_fde_loop.md R72). -/
theorem exec_cases {i : Instr} {s t : State} (h : exec i s = .next t) :
    (i = .halt ∧ t = complete s) ∨
    (∃ v, i = .loadAccumulatorImmediate v ∧ t = { s with a := v, p := statusAfter s.p v }) ∨
    (i = .transferAccumulatorToIndex ∧ t = { s with x := s.a, p := statusAfter s.p s.a }) ∨
    (i = .incrementIndex ∧ t = { s with x := s.a + 1, p := statusAfter s.p (s.a + 1) }) ∨
    (∃ b, i = .unrecognized b ∧ t = raise (.unimplementedOpcode b (s.pc - 1)) s) := by
  cases i with
  | halt => cases h; exact .inl ⟨rfl, rfl⟩
  | loadAccumulatorImmediate v => cases h; exact .inr (.inl ⟨v, rfl, writeRegister_accumulator_eq v s⟩)
  | transferAccumulatorToIndex => cases h; exact .inr (.inr (.inl ⟨rfl, writeRegister_indexX_eq s.a s⟩))
  | incrementIndex => cases h; exact .inr (.inr (.inr (.inl ⟨rfl, writeRegister_indexX_eq (s.a + 1) s⟩)))
  | unrecognized b => cases h; exact .inr (.inr (.inr (.inr ⟨b, rfl, rfl⟩)))

/-- Everything a step of the core can do while a run is in progress (41_fde_loop.md R74). -/
theorem step_running {s t : State} (hr : s.run = .running) (h : step s = .next t) :
    fetchInstr s = .raised t ∨ ∃ i u, fetchInstr s = .decoded i u ∧ exec i u = .next t := by
  simp only [step, hr, if_true] at h
  split at h
  · rename_i i u hu
    exact .inr ⟨i, u, hu, h⟩
  · rename_i u hu
    cases h
    exact .inl hu

/-- A step with no run in progress is the host's turn (45_host_operations.md R94). -/
theorem step_not_running {s : State} (hr : s.run ≠ .running) : step s = .next (hostTurn s) := by
  simp [step, hr]

end Sys2Proof.Machine
end

