-- ==== Sys2Proof/Laws/Transactions.lean ====
section
/-! SUPPORT. One lemma per host transaction: what the host's turn does for each request (45_host_operations.md R86 to R90). -/

namespace Sys2Proof.Machine

theorem startRun_of_le {program : List Byte} (h : program.length ≤ 65535) (s : State) :
    startRun program s = runStart program s := if_pos h

/-- A program too long is refused with no effect (R89). -/
theorem startRun_of_lt {program : List Byte} (h : 65535 < program.length) (s : State) : startRun program s = s :=
  if_neg (Nat.not_le.mpr h)

/-- With no request every field keeps its value (60_exceptions.md R114). -/
theorem hostTurn_nil {s : State} (h : s.requests = []) : hostTurn s = s := by
  simp [hostTurn, h]

theorem hostTurn_cons {s : State} {r : HostRequest} {rest : List HostRequest} (h : s.requests = r :: rest) :
    hostTurn s = transact r { s with requests := rest } := by
  simp [hostTurn, h]

/-- What a Preset leaves alone: the run state, the fault record and the program (R88). -/
theorem preset_keeps (w : Preset) (s : State) :
    (preset w s).run = s.run ∧ (preset w s).fault = s.fault ∧ (preset w s).prog = s.prog := by
  cases w <;> exact ⟨rfl, rfl, rfl⟩

end Sys2Proof.Machine
end

