-- ==== Sys2Proof/Laws/Run.lean ====
section
/-! SUPPORT. A step of a running machine by the bytes at `PC`, said once (41_fde_loop.md R74); and the unfolding lemmas of
`runToEnd` and `verdictFrom`. -/

namespace Sys2Proof.Machine

/-- The five rows of the opcode table, for any byte (30_encoding.md R53). -/
theorem decodeOpcode_cases (b : Byte) :
    (b = 0x00#8 ∧ decodeOpcode b = .complete .halt) ∨
    (b = 0xA9#8 ∧ decodeOpcode b = .operandPending) ∨
    (b = 0xAA#8 ∧ decodeOpcode b = .complete .transferAccumulatorToIndex) ∨
    (b = 0xE8#8 ∧ decodeOpcode b = .complete .incrementIndex) ∨
    (b ∉ tableOpcodes ∧ decodeOpcode b = .complete (.unrecognized b)) := by
  by_cases h0 : b = 0x00#8
  · subst h0; decide
  by_cases h1 : b = 0xA9#8
  · subst h1; decide
  by_cases h2 : b = 0xAA#8
  · subst h2; decide
  by_cases h3 : b = 0xE8#8
  · subst h3; decide
  simp [decodeOpcode, h0, h1, h2, h3, tableOpcodes]

/-- Fetching a one-byte instruction. -/
theorem fetchInstr_of_complete {s : State} {b : Byte} {i : Instr} (h : progRead s.prog s.pc = some b)
    (hd : decodeOpcode b = .complete i) : fetchInstr s = .decoded i (advancePc 1 s) := by
  simp [fetchInstr, fetchByte_of_some h, hd]

/-- Fetching the load and its operand. -/
theorem fetchInstr_of_load {s : State} {v : Byte} (h : progRead s.prog s.pc = some 0xA9#8)
    (hv : progRead s.prog (s.pc + 1) = some v) :
    fetchInstr s = .decoded (.loadAccumulatorImmediate v) (advancePc 2 s) := by
  have h2 : fetchByte (advancePc 1 s) = .byte v (advancePc 1 (advancePc 1 s)) := fetchByte_of_some (s := advancePc 1 s) hv
  simp only [fetchInstr, fetchByte_of_some h, (decodeOpcode_pending_iff _).mpr rfl, h2, operandInstr]
  simp [advancePc, BitVec.add_assoc]

/-- The opcode fetch fails. -/
theorem fetchInstr_of_none {s : State} (h : progRead s.prog s.pc = none) :
    fetchInstr s = .raised (raise (.outOfBoundsFetch s.pc) s) := by
  simp [fetchInstr, fetchByte_of_none h]

/-- The operand fetch fails. -/
theorem fetchInstr_of_missing {s : State} (h : progRead s.prog s.pc = some 0xA9#8)
    (hv : progRead s.prog (s.pc + 1) = none) :
    fetchInstr s = .raised (raise (.outOfBoundsFetch (s.pc + 1)) (advancePc 1 s)) := by
  have h2 : fetchByte (advancePc 1 s) = .raised (raise (.outOfBoundsFetch (s.pc + 1)) (advancePc 1 s)) :=
    fetchByte_of_none (s := advancePc 1 s) hv
  simp only [fetchInstr, fetchByte_of_some h, (decodeOpcode_pending_iff _).mpr rfl, h2]

theorem step_of_decoded {s u : State} {i : Instr} (hr : s.run = .running) (h : fetchInstr s = .decoded i u) :
    step s = exec i u := by
  simp [step, hr, h]

theorem step_of_raised {s u : State} (hr : s.run = .running) (h : fetchInstr s = .raised u) : step s = .next u := by
  simp [step, hr, h]

/-- The whole step of a running machine by the bytes at `PC`, each case with its next state (R74). -/
theorem step_running_total (s : State) (hr : s.run = .running) :
    (progRead s.prog s.pc = none ∧ step s = .next (raise (.outOfBoundsFetch s.pc) s)) ∨
    (progRead s.prog s.pc = some 0xA9#8 ∧ progRead s.prog (s.pc + 1) = none ∧
      step s = .next (raise (.outOfBoundsFetch (s.pc + 1)) (advancePc 1 s))) ∨
    (progRead s.prog s.pc = some 0x00#8 ∧ step s = .next (complete (advancePc 1 s))) ∨
    (∃ v, progRead s.prog s.pc = some 0xA9#8 ∧ progRead s.prog (s.pc + 1) = some v ∧
      step s = .next { s with a := v, p := statusAfter s.p v, pc := s.pc + 2 }) ∨
    (progRead s.prog s.pc = some 0xAA#8 ∧
      step s = .next { s with x := s.a, p := statusAfter s.p s.a, pc := s.pc + 1 }) ∨
    (progRead s.prog s.pc = some 0xE8#8 ∧
      step s = .next { s with x := s.a + 1, p := statusAfter s.p (s.a + 1), pc := s.pc + 1 }) ∨
    (∃ b, b ∉ tableOpcodes ∧ progRead s.prog s.pc = some b ∧
      step s = .next (raise (.unimplementedOpcode b s.pc) (advancePc 1 s))) := by
  cases hb : progRead s.prog s.pc with
  | none => exact .inl ⟨rfl, step_of_raised hr (fetchInstr_of_none hb)⟩
  | some b =>
    rcases decodeOpcode_cases b with ⟨rfl, hd⟩ | ⟨rfl, hd⟩ | ⟨rfl, hd⟩ | ⟨rfl, hd⟩ | ⟨hn, hd⟩
    · exact .inr (.inr (.inl ⟨rfl, by rw [step_of_decoded hr (fetchInstr_of_complete hb hd)]; rfl⟩))
    · cases hv : progRead s.prog (s.pc + 1) with
      | none => exact .inr (.inl ⟨rfl, rfl, step_of_raised hr (fetchInstr_of_missing hb hv)⟩)
      | some v =>
        refine .inr (.inr (.inr (.inl ⟨v, rfl, rfl, ?_⟩)))
        rw [step_of_decoded hr (fetchInstr_of_load hb hv)]
        exact congrArg _ (writeRegister_accumulator_eq v (advancePc 2 s))
    · refine .inr (.inr (.inr (.inr (.inl ⟨rfl, ?_⟩))))
      rw [step_of_decoded hr (fetchInstr_of_complete hb hd)]
      exact congrArg _ (writeRegister_indexX_eq s.a (advancePc 1 s))
    · refine .inr (.inr (.inr (.inr (.inr (.inl ⟨rfl, ?_⟩)))))
      rw [step_of_decoded hr (fetchInstr_of_complete hb hd)]
      exact congrArg _ (writeRegister_indexX_eq (s.a + 1) (advancePc 1 s))
    · refine .inr (.inr (.inr (.inr (.inr (.inr ⟨b, hn, rfl, ?_⟩)))))
      rw [step_of_decoded hr (fetchInstr_of_complete hb hd)]
      simp [exec, execUnrecognized, raise, advancePc]

/-- A run that is over takes no more steps. -/
theorem runToEnd_of_not_running {s : State} (h : s.run ≠ .running) (n : Nat) : Safety.runToEnd n s = s := by
  cases n <;> simp [Safety.runToEnd, h]

theorem runToEnd_succ {s t : State} (hr : s.run = .running) (h : step s = .next t) (n : Nat) :
    Safety.runToEnd (n + 1) s = Safety.runToEnd n t := by
  simp [Safety.runToEnd, hr, h]

theorem verdictFrom_nil (k : Nat) : Safety.verdictFrom k [] = .outOfBoundsFetch (BitVec.ofNat 16 k) := rfl

theorem verdictFrom_halt (k : Nat) (rest : List Byte) : Safety.verdictFrom k (0x00#8 :: rest) = .none := by
  cases rest <;> rfl

theorem verdictFrom_load_end (k : Nat) :
    Safety.verdictFrom k [0xA9#8] = .outOfBoundsFetch (BitVec.ofNat 16 (k + 1)) := rfl

theorem verdictFrom_load (k : Nat) (v : Byte) (rest : List Byte) :
    Safety.verdictFrom k (0xA9#8 :: v :: rest) = Safety.verdictFrom (k + 2) rest := rfl

theorem verdictFrom_transfer (k : Nat) (rest : List Byte) :
    Safety.verdictFrom k (0xAA#8 :: rest) = Safety.verdictFrom (k + 1) rest := by
  cases rest <;> rfl

theorem verdictFrom_increment (k : Nat) (rest : List Byte) :
    Safety.verdictFrom k (0xE8#8 :: rest) = Safety.verdictFrom (k + 1) rest := by
  cases rest <;> rfl

theorem verdictFrom_unrecognized (k : Nat) {b : Byte} (hb : b ∉ tableOpcodes) (rest : List Byte) :
    Safety.verdictFrom k (b :: rest) = .unimplementedOpcode b (BitVec.ofNat 16 k) := by
  simp only [tableOpcodes, List.mem_cons, List.not_mem_nil, or_false, not_or] at hb
  cases rest <;> simp [Safety.verdictFrom, hb]

end Sys2Proof.Machine
end

