-- ==== Sys2Proof/Tests/Slice0.lean ====
section
/-! SUPPORT. Tests: expected values are the spec's own words and vectors (95_test_vectors.md; the vector's name is in each
comment), and one witness for the hypotheses of each statement that has any. -/

namespace Sys2Proof.Tests

open Machine Safety

/-- A run of `program` about to take its first step, from registers `a`, `x`, `p`. -/
def started (program : List Byte) (a x p : Byte) : State := runStart program { State.reset with a := a, x := x, p := p }

/-- A state with no run in progress, the given run state and fault record, and the host's requests. -/
def waiting (run : RunState) (fault : FaultRecord) (requests : List HostRequest) : State :=
  { State.reset with run := run, fault := fault, requests := requests }

/-- The state after one step, where there is one. -/
def after (s : State) : Option State :=
  match step s with
  | .next t => some t
  | .fault _ => none
  | .refused _ => none

/-- What the vectors of 95_test_vectors.md list: `A`, `X`, `P`, `PC`, the run state and the fault record. -/
def view (s : State) : Byte × Byte × Byte × Offset × RunState × FaultRecord := (s.a, s.x, s.p, s.pc, s.run, s.fault)

/-! ### WellFormed: a term each check refuses -/

theorem test_wellFormed_refuses_halt_byte : (Instr.unrecognized 0x00#8).wellFormed = false := by decide
theorem test_wellFormed_refuses_load_byte : (Instr.unrecognized 0xA9#8).wellFormed = false := by decide
theorem test_wellFormed_refuses_transfer_byte : (Instr.unrecognized 0xAA#8).wellFormed = false := by decide
theorem test_wellFormed_refuses_increment_byte : (Instr.unrecognized 0xE8#8).wellFormed = false := by decide
theorem test_wellFormed_accepts_others :
    ([0x01#8, 0xA8#8, 0xAB#8, 0xE7#8, 0xE9#8, 0xFF#8].all fun b => (Instr.unrecognized b).wellFormed) = true := by decide

/-! ### Decoding: words written out from R50 and R52, one per constructor; the nearest neighbours of R53 -/

theorem test_decode_halt : decode [0b00000000#8] = .instr .halt [] := by decide
theorem test_decode_load : decode [0b10101001#8, 0b00000101#8, 0x00#8] = .instr (.loadAccumulatorImmediate 0x05#8) [0x00#8] := by
  decide
theorem test_decode_transfer : decode [0b10101010#8] = .instr .transferAccumulatorToIndex [] := by decide
theorem test_decode_increment : decode [0b11101000#8] = .instr .incrementIndex [] := by decide
theorem test_decode_unrecognized : decode [0b11101010#8] = .instr (.unrecognized 0xEA#8) [] := by decide
theorem test_decode_neighbours :
    ([0x01#8, 0xA8#8, 0xAB#8, 0xE7#8, 0xE9#8].all fun b => decode [b] = .instr (.unrecognized b) []) = true := by decide
/-- R56: the operand is data, so `A9 E8` is no increment. -/
theorem test_decode_operand_is_data : decode [0xA9#8, 0xE8#8] = .instr (.loadAccumulatorImmediate 0xE8#8) [] := by decide
theorem test_decode_missing_operand : decode [0xA9#8] = .rejected .missingOperand := by decide
theorem test_tableWord_load : decodeTableWord 16 0x05A9 = some (.loadAccumulatorImmediate 0x05#8) := by decide
theorem test_tableWord_short : decodeTableWord 8 0xA9 = some (.loadAccumulatorImmediate 0x00#8) := by decide
/-- The word placed at the next fetch runs from reset (R83, L1). -/
theorem test_withFetchWord_runs :
    (after (State.reset.withFetchWord 16 0x80A9)).map view = some (0x80#8, 0x00#8, 0x80#8, 0x0002#16, .running, .none) := by
  decide

/-! ### Register file operations (vectors W2, W5, F1, F2) -/

/-- W2 -/
theorem test_writeRegister_index : view (writeRegister .indexX 0x00#8 { State.reset with a := 0x9C#8, x := 0x33#8, p := 0x80#8 }) =
    (0x9C#8, 0x00#8, 0x02#8, 0x0000#16, .idle, .none) := by decide
/-- W5 -/
theorem test_writeRegister_reserved : (writeRegister .accumulator 0x80#8 { State.reset with p := 0x7D#8 }).p = 0xFD#8 := by decide
/-- F1 -/
theorem test_writeFlag_sets : (writeFlag .zero true { State.reset with p := 0x7D#8 }).p = 0x7F#8 := by decide
/-- F2 -/
theorem test_writeFlag_clears : (writeFlag .negative false { State.reset with p := 0xFF#8 }).p = 0x7F#8 := by decide
/-- The second `idx` row of the corner cases of 40_register_file_ops.md: the alternative setting. -/
theorem test_increment_alternative : (incrementRegister .indexX .indexX { State.reset with a := 0xFF#8, x := 0x12#8 }).x = 0x13#8 := by
  decide

/-! ### One step of each instruction -/

/-- H2 -/
theorem test_halt_keeps_everything : (after (started [0x00#8] 0x12#8 0x34#8 0xFF#8)).map view =
    some (0x12#8, 0x34#8, 0xFF#8, 0x0001#16, .halted, .none) := by decide
/-- L3, first step -/
theorem test_load_negative : (after (started [0xA9#8, 0xFF#8, 0x00#8] 0x00#8 0x00#8 0x7D#8)).map view =
    some (0xFF#8, 0x00#8, 0xFD#8, 0x0002#16, .running, .none) := by decide
/-- L8 -/
theorem test_load_missing_operand : (after (started [0xA9#8] 0x77#8 0x00#8 0x80#8)).map view =
    some (0x77#8, 0x00#8, 0x80#8, 0x0001#16, .faulted, .outOfBoundsFetch 0x0001#16) := by decide
/-- T1, first step -/
theorem test_transfer_zero : (after (started [0xAA#8, 0x00#8] 0x00#8 0x55#8 0x00#8)).map view =
    some (0x00#8, 0x00#8, 0x02#8, 0x0001#16, .running, .none) := by decide
/-- T3, first step -/
theorem test_transfer_clears_flags : (after (started [0xAA#8, 0x00#8] 0x7F#8 0x00#8 0x82#8)).map view =
    some (0x7F#8, 0x7F#8, 0x00#8, 0x0001#16, .running, .none) := by decide
/-- I1, first step -/
theorem test_increment_wraps : (after (started [0xE8#8, 0x00#8] 0xFF#8 0x12#8 0x00#8)).map view =
    some (0xFF#8, 0x00#8, 0x02#8, 0x0001#16, .running, .none) := by decide
/-- I3, first step: the distinguishing case of INC_SOURCE -/
theorem test_increment_reads_accumulator : (after (started [0xE8#8, 0x00#8] 0x10#8 0x20#8 0x00#8)).map view =
    some (0x10#8, 0x11#8, 0x00#8, 0x0001#16, .running, .none) := by decide
/-- S8 -/
theorem test_unrecognized_faults : (after (started [0xFF#8, 0x00#8] 0x12#8 0x34#8 0x82#8)).map view =
    some (0x12#8, 0x34#8, 0x82#8, 0x0001#16, .faulted, .unimplementedOpcode 0xFF#8 0x0000#16) := by decide
/-- U1: the empty program -/
theorem test_empty_program : (after (started [] 0x00#8 0x00#8 0x00#8)).map view =
    some (0x00#8, 0x00#8, 0x00#8, 0x0000#16, .faulted, .outOfBoundsFetch 0x0000#16) := by decide

/-! ### The host's transactions (vectors X3, X4, X5, one step each) and the program's canonical form -/

/-- X3: a preset of `PC` is written, and overwritten at the run start. -/
theorem test_preset_pc : (after (waiting .idle .none [.preset (.pc 0x1234#16)])).map (·.pc) = some 0x1234#16 := by decide
theorem test_run_overwrites_pc : ((after { waiting .idle .none [.run [0x00#8]] with pc := 0x1234#16 }).map view) =
    some (0x00#8, 0x00#8, 0x00#8, 0x0000#16, .running, .none) := by decide
/-- X4: a Run on a faulted state clears the record. -/
theorem test_run_after_fault : ((after (waiting .faulted (.unimplementedOpcode 0xEA#8 0x0000#16) [.run [0xA9#8, 0x80#8, 0x00#8]])).map
    view) = some (0x00#8, 0x00#8, 0x00#8, 0x0000#16, .running, .none) := by decide
/-- X5: a preset of `A` does not recompute the flags, as Observe shows. -/
theorem test_preset_keeps_flags : ((after (waiting .idle .none [.preset (.a 0x00#8)])).map fun t => (observation t).zero) = some false := by
  decide
theorem test_wf_refuses_a_gap : Memory.wf [(0, 0xA9#8), (2, 0x00#8)] = false := by decide

/-! ### Witnesses: a state and operands that meet all hypotheses of a statement together -/

theorem witness_FlagsDependOnTheValueAlone : ∃ zero one top low high : Byte, zero = 0 ∧ (0x01 ≤ one.toNat ∧ one.toNat ≤ 0x7F) ∧
    (top.toNat = 0x7F ∧ 0x01 ≤ top.toNat) ∧ 0x80 ≤ low.toNat ∧ high.toNat = 0xFF ∧ 0x80 ≤ high.toNat :=
  ⟨0, 0x01#8, 0x7F#8, 0x80#8, 0xFF#8, by decide⟩
theorem witness_other_register : ∃ q r : Reg, q ≠ r := ⟨.indexX, .accumulator, by decide⟩
theorem witness_ExecuteAppliesTheTableEffect : (∃ (s u : State) (i : Instr), s.run = .running ∧ fetchInstr s = .decoded i u) ∧
    ∃ s u : State, s.run = .running ∧ fetchInstr s = .raised u :=
  ⟨⟨started [0x00#8] 0 0 0, _, _, rfl, rfl⟩, ⟨started [] 0 0 0, _, rfl, rfl⟩⟩
theorem witness_RegisterWritersFrame_load : ∃ (v : Byte) (s t : State), exec (.loadAccumulatorImmediate v) s = .next t :=
  ⟨0x80#8, State.reset, _, rfl⟩
theorem witness_RegisterWritersFrame_transfer : ∃ s t : State, exec .transferAccumulatorToIndex s = .next t :=
  ⟨State.reset, _, rfl⟩
theorem witness_RegisterWritersFrame_increment : ∃ s t : State, exec .incrementIndex s = .next t := ⟨State.reset, _, rfl⟩
theorem witness_RunEndersFrame : (∃ s t : State, exec .halt s = .next t) ∧ ∃ (b : Byte) (s t : State), exec (.unrecognized b) s = .next t :=
  ⟨⟨State.reset, _, rfl⟩, ⟨0xEA#8, State.reset, _, rfl⟩⟩
theorem witness_DecodeOpcodeIsTheTable : ∃ b : Byte, b ≠ 0x00#8 ∧ b ≠ 0xA9#8 ∧ b ≠ 0xAA#8 ∧ b ≠ 0xE8#8 := ⟨0xAB#8, by decide⟩
theorem witness_LengthFollowsFromTheOpcodeByte : ∃ (rest tail : List Byte) (i : Instr), decode (0xA9#8 :: rest) = .instr i tail :=
  ⟨[0x01#8], [], _, rfl⟩
theorem witness_DecodeOfEncode : (Instr.unrecognized 0xEA#8).wellFormed = true ∧ (Instr.loadAccumulatorImmediate 0xFF#8).wellFormed = true := by
  decide
theorem witness_EncodeOfDecode : ∃ (bytes rest : List Byte) (i : Instr), decode bytes = .instr i rest :=
  ⟨[0xA9#8, 0xE8#8, 0x00#8], [0x00#8], _, rfl⟩
theorem witness_IllegalOpcodeEndsTheRun : ∃ (s : State) (b : Byte), s.run = .running ∧ progRead s.prog s.pc = some b ∧
    b ≠ 0x00#8 ∧ b ≠ 0xA9#8 ∧ b ≠ 0xAA#8 ∧ b ≠ 0xE8#8 := ⟨started [0xA8#8] 0 0 0, 0xA8#8, by decide⟩
theorem witness_running_step : ∃ s t : State, Invariant s ∧ s.run = .running ∧ step s = .next t :=
  ⟨started [0xA9#8, 0x05#8, 0x00#8] 0 0 0, _, by decide, rfl, rfl⟩
theorem witness_ProgReadAnswersExactlyBelowLength : ∃ m : Memory, m.wf = true ∧ (1 : Offset).toNat < m.len ∧ ¬ (2 : Offset).toNat < m.len :=
  ⟨Memory.ofBytes [0xA9#8, 0x05#8], by decide⟩
theorem witness_OpcodeFetch_at_length : ∃ s : State, s.prog.wf = true ∧ s.prog.len = s.pc.toNat ∧ s.run = .running :=
  ⟨{ started [0xAA#8] 0 0 0 with pc := 1 }, by decide⟩
theorem witness_OpcodeFetch_last_byte : ∃ s : State, s.prog.wf = true ∧ s.pc.toNat + 1 = s.prog.len ∧ s.run = .running :=
  ⟨started [0xAA#8] 0 0 0, by decide⟩
theorem witness_MissingOperandFaultsAtItsOffset : ∃ s : State, s.prog.wf = true ∧ s.run = .running ∧
    progRead s.prog s.pc = some 0xA9#8 ∧ s.pc.toNat + 1 = s.prog.len := ⟨started [0xA9#8] 0 0 0, by decide⟩
theorem witness_StepRunsTheDecodedInstruction : ∃ (s : State) (i : Instr) (rest : List Byte), s.run = .running ∧
    decode (bytesFrom s.prog maxInstrLength s.pc) = .instr i rest := ⟨started [0xE8#8, 0x00#8] 0 0 0, .incrementIndex, [0x00#8], by decide⟩
/-- Different registers, `PC`, programs and following bytes; a load needs its operand byte equal. -/
theorem witness_DecodingIgnoresTheRegisters_decoded : ∃ (s t u : State) (i : Instr), s.a ≠ t.a ∧ s.pc ≠ t.pc ∧ s.prog ≠ t.prog ∧
    progRead t.prog t.pc = progRead s.prog s.pc ∧
    (progRead s.prog s.pc = some 0xA9#8 → progRead t.prog (t.pc + 1) = progRead s.prog (s.pc + 1)) ∧ fetchInstr s = .decoded i u :=
  ⟨started [0xA9#8, 0x05#8] 0 0 0, { started [0xAA#8, 0xA9#8, 0x05#8] 1 2 3 with pc := 1 }, _, _, by decide, by decide, by decide,
    by decide, by decide, rfl⟩
theorem witness_DecodingIgnoresTheRegisters_raised : ∃ s t u : State, s.a ≠ t.a ∧ s.pc ≠ t.pc ∧
    progRead t.prog t.pc = progRead s.prog s.pc ∧
    (progRead s.prog s.pc = some 0xA9#8 → progRead t.prog (t.pc + 1) = progRead s.prog (s.pc + 1)) ∧ fetchInstr s = .raised u :=
  ⟨started [0xA9#8] 0 0 0, { started [0xAA#8, 0xA9#8] 1 2 3 with pc := 1 }, _, by decide, by decide, by decide, by decide, rfl⟩
/-- H3: the byte right after the Halt differs. -/
theorem witness_UnfetchedBytesHaveNoEffect_halt : ∃ (s t : State) (m : Memory), s.run = .running ∧ step s = .next t ∧
    progRead m s.pc = progRead s.prog s.pc ∧ progRead m (s.pc + 1) ≠ progRead s.prog (s.pc + 1) ∧
    (progRead s.prog s.pc = some 0xA9#8 → progRead m (s.pc + 1) = progRead s.prog (s.pc + 1)) :=
  ⟨started [0x00#8, 0xFF#8, 0xA9#8] 0 0 0, _, Memory.ofBytes [0x00#8, 0xE8#8], rfl, rfl, by decide, by decide, by decide⟩
theorem witness_UnfetchedBytesHaveNoEffect_load : ∃ (s t : State) (m : Memory), m ≠ s.prog ∧ s.run = .running ∧ step s = .next t ∧
    progRead m s.pc = progRead s.prog s.pc ∧ progRead s.prog s.pc = some 0xA9#8 ∧
    (progRead s.prog s.pc = some 0xA9#8 → progRead m (s.pc + 1) = progRead s.prog (s.pc + 1)) :=
  ⟨started [0xA9#8, 0x05#8, 0x00#8] 0 0 0, _, Memory.ofBytes [0xA9#8, 0x05#8], by decide, rfl, rfl, by decide, by decide, by decide⟩
theorem witness_TerminationTest : ∃ (s u : State) (i : Instr), s.run = .running ∧ fetchInstr s = .decoded i u :=
  ⟨started [0xFF#8] 0 0 0, _, _, rfl, rfl⟩
theorem witness_TerminationTest_ends : ∃ s t : State, s.run = .running ∧ step s = .next t ∧ t.run ≠ .running :=
  ⟨started [0x00#8] 0 0 0, _, rfl, rfl, by decide⟩
theorem witness_StateAtNormalCompletion : ∃ s t : State, Invariant s ∧ s.run = .running ∧ step s = .next t ∧ t.run = .halted :=
  ⟨started [0x00#8] 0 0 0, _, by decide, rfl, rfl, rfl⟩
theorem witness_FaultingStepIsPrecise_opcode : ∃ s t : State, Invariant s ∧ s.run = .running ∧ step s = .next t ∧ t.run = .faulted :=
  ⟨started [0xFF#8] 0 0 0, _, by decide, rfl, rfl, rfl⟩
theorem witness_FaultingStepIsPrecise_fetch : ∃ s t : State, Invariant s ∧ s.run = .running ∧ step s = .next t ∧ t.run = .faulted :=
  ⟨started [0xA9#8] 0 0 0, _, by decide, rfl, rfl, rfl⟩
theorem witness_FlagsDescribeTheRegisterWrittenLast : ∃ (s t u : State) (i : Instr), s.run = .running ∧ step s = .next t ∧
    fetchInstr s = .decoded i u ∧ i = .incrementIndex := ⟨started [0xE8#8] 0 0 0, _, _, _, rfl, rfl, rfl, rfl⟩
theorem witness_FlagsDescribeTheRegisterWrittenLast_load : ∃ (s t u : State) (i : Instr), s.run = .running ∧ step s = .next t ∧
    fetchInstr s = .decoded i u ∧ ∃ v, i = .loadAccumulatorImmediate v := ⟨started [0xA9#8, 0x01#8] 0 0 0, _, _, _, rfl, rfl, rfl, _, rfl⟩
theorem witness_RegistersChangeOnlyByTheirWriters_a : ∃ s t : State, s.run = .running ∧ step s = .next t ∧ t.a ≠ s.a :=
  ⟨started [0xA9#8, 0x01#8] 0 0 0, _, rfl, rfl, by decide⟩
theorem witness_RegistersChangeOnlyByTheirWriters_x : ∃ s t : State, s.run = .running ∧ step s = .next t ∧ t.x ≠ s.x :=
  ⟨started [0xE8#8] 0 0 0, _, rfl, rfl, by decide⟩
theorem witness_EveryStepKeepsTheInvariant_host : ∃ s t : State, Invariant s ∧ s.run ≠ .running ∧ step s = .next t :=
  ⟨waiting .idle .none [.run [0x00#8]], _, by decide, by decide, rfl⟩
theorem witness_EveryRunEndsWithinItsBound : ∃ s : State, Invariant s ∧ s.run = .running := ⟨started [0xAA#8, 0xAA#8] 0 0 0, by decide⟩
theorem witness_program_length_bound : ∃ program : List Byte, program.length = 65535 ∧ program.length ≤ 65535 :=
  ⟨List.replicate 65535 0x00#8, by rw [List.length_replicate]; exact ⟨rfl, Nat.le_refl _⟩⟩
theorem witness_RunsOfOneProgramAgree : ∃ s t : State, s ≠ t ∧ s.a = t.a ∧ s.x = t.x ∧ s.p = t.p :=
  ⟨State.reset, { State.reset with pc := 5 }, by decide⟩
theorem witness_ConstructIsServedWhenNoRun : ∃ (s : State) (rest : List HostRequest), s.run ≠ .running ∧ s.requests = .construct :: rest :=
  ⟨waiting .halted .none [.construct], [], by decide⟩
theorem witness_PresetWritesOneField_byte : ∃ (s t u : State) (v : Byte) (rest : List HostRequest), s.run ≠ .running ∧ t.run ≠ .running ∧
    u.run ≠ .running ∧ s.requests = .preset (.a v) :: rest ∧ t.requests = .preset (.x v) :: rest ∧ u.requests = .preset (.p v) :: rest :=
  ⟨waiting .idle .none [.preset (.a 0x0A#8)], waiting .idle .none [.preset (.x 0x0A#8)], waiting .idle .none [.preset (.p 0x0A#8)],
    0x0A#8, [], by decide⟩
theorem witness_PresetWritesOneField_pc : ∃ (s : State) (v : Offset) (rest : List HostRequest), s.run ≠ .running ∧
    s.requests = .preset (.pc v) :: rest := ⟨waiting .halted .none [.preset (.pc 0xFFFF#16)], 0xFFFF#16, [], by decide⟩
theorem witness_RunStartsOrIsRefused_start : ∃ (s : State) (program : List Byte) (rest : List HostRequest), s.run ≠ .running ∧
    s.requests = .run program :: rest ∧ program.length = 65535 :=
  ⟨waiting .idle .none [.run (List.replicate 65535 0x00#8)], _, [], (by decide : RunState.idle ≠ RunState.running), rfl, List.length_replicate ..⟩
theorem witness_RunStartsOrIsRefused_refused : ∃ (s : State) (program : List Byte) (rest : List HostRequest), s.run ≠ .running ∧
    s.requests = .run program :: rest ∧ program.length = 65536 :=
  ⟨waiting .idle .none [.run (List.replicate 65536 0x00#8)], _, [], (by decide : RunState.idle ≠ RunState.running), rfl, List.length_replicate ..⟩
theorem witness_ObserveReadsWithoutSideEffect : ∃ (s : State) (rest : List HostRequest), s.run ≠ .running ∧ s.requests = .observe :: rest :=
  ⟨waiting .faulted (.outOfBoundsFetch 0) [.observe], [], by decide⟩
theorem witness_NothingChangesWithoutARunOrARequest : ∃ s : State, s.run ≠ .running ∧ s.requests = [] := ⟨State.reset, by decide⟩
theorem witness_RunStateChangesAsTheTableSays_running : ∃ s t u v : State, s.run = .running ∧ step s = .next t ∧ u.run = .running ∧
    step u = .next v ∧ t.run = .halted ∧ v.run = .faulted :=
  ⟨started [0x00#8] 0 0 0, _, started [] 0 0 0, _, rfl, rfl, rfl, rfl, rfl, rfl⟩
theorem witness_RunStateChangesAsTheTableSays_construct : ∃ s t : State, s.run ≠ .running ∧ step s = .next t ∧
    s.requests.head? = some .construct := ⟨waiting .halted .none [.construct], _, by decide, rfl, rfl⟩
theorem witness_RunStateChangesAsTheTableSays_run : ∃ (s t : State) (program : List Byte), s.run ≠ .running ∧ step s = .next t ∧
    s.requests.head? = some (.run program) ∧ program.length ≤ 65535 :=
  ⟨waiting .idle .none [.run [0x00#8]], _, _, by decide, rfl, rfl, by decide⟩
theorem witness_RunStateChangesAsTheTableSays_stays : ∃ s t : State, s.run ≠ .running ∧ step s = .next t ∧
    s.requests.head? ≠ some .construct ∧ ∀ program, s.requests.head? = some (.run program) → 65535 < program.length :=
  ⟨waiting .halted .none [.observe], _, by decide, rfl, by decide, by intro p h; cases h⟩
theorem witness_FaultPersistsUntilConstructOrRun : ∃ s t : State, s.run = .faulted ∧ step s = .next t :=
  ⟨waiting .faulted (.outOfBoundsFetch 0) [.construct], _, rfl, rfl⟩

end Sys2Proof.Tests
end

section
/-! Reset and run start (10_state.md R28, R29; 70_reset_and_hazards.md R117): what the power-on state holds, and what the first
fetch of a run reads. -/

namespace Sys2Proof.Machine

@[simp] theorem reset_a : State.reset.a = 0 := rfl
@[simp] theorem reset_x : State.reset.x = 0 := rfl
@[simp] theorem reset_p : State.reset.p = 0 := rfl
@[simp] theorem reset_pc : State.reset.pc = 0 := rfl
@[simp] theorem reset_run : State.reset.run = .idle := rfl
@[simp] theorem reset_fault : State.reset.fault = .none := rfl

/-- A zero status byte has both flags clear (R16). -/
theorem readFlag_of_p_eq_zero {s : State} (h : s.p = 0) (f : Flag) : readFlag f s = false := by
  simp [readFlag, h]

/-- Offset 0 of a program space holds the first byte of the program (20_memory.md R33). -/
theorem progRead_ofBytes_cons_zero (b : Byte) (rest : List Byte) :
    progRead (Memory.ofBytes (b :: rest)) 0#16 = some b := rfl

/-- The first opcode of a run is byte 0 of its program, and the fetch leaves `PC` at 1 (R117). -/
theorem fetchByte_runStart_cons (b : Byte) (rest : List Byte) (s : State) :
    fetchByte (runStart (b :: rest) s) = .byte b { runStart (b :: rest) s with pc := 1 } := by
  have hread : progRead (runStart (b :: rest) s).prog (runStart (b :: rest) s).pc = some b :=
    progRead_ofBytes_cons_zero b rest
  rw [fetchByte_of_some hread]
  simp [advancePc]

/-- A run starts the same whatever `PC` was before (R29). -/
theorem runStart_pc_irrelevant (program : List Byte) (s : State) (q : Offset) :
    runStart program { s with pc := q } = runStart program s := rfl

/-- Settles O1: the fields of the power-on state, and those `construct` leaves. -/
theorem constructionZeroesEverything : Obligations.ConstructionZeroesEverything := by
  refine ⟨⟨reset_a, reset_x, reset_p, reset_pc, ?zero, ?negative, ?reserved, reset_run, reset_fault⟩, fun s => ?construct⟩
  case zero => exact readFlag_of_p_eq_zero reset_p .zero
  case negative => exact readFlag_of_p_eq_zero reset_p .negative
  case reserved => simp
  case construct =>
    exact ⟨construct_a s, construct_x s, construct_p s, construct_pc s, construct_run s, construct_fault s⟩

/-- Settles O2: the frame of `runStart`, and the first fetch at offset 0. -/
theorem runStartResetsThePcAndFetchesOffsetZero : Obligations.RunStartResetsThePcAndFetchesOffsetZero := by
  intro program s
  refine ⟨runStart_pc program s, runStart_a program s, runStart_x program s, runStart_p program s,
    runStart_run program s, runStart_fault program s, ?firstFetch, runStart_pc_irrelevant program s⟩
  case firstFetch =>
    rintro b rest rfl
    exact fetchByte_runStart_cons b rest s

end Sys2Proof.Machine
end

section
/-! The program space of a run (20_memory.md R33): the bytes it is laid out from, and that no step of a run changes it. -/

namespace Sys2Proof.Machine

/-- A byte sequence laid out from offset `k` on holds its byte `i` at offset `k + i`, and nothing from its end on (R33). -/
theorem Memory.read_ofBytesFrom (bytes : List Byte) :
    ∀ k i, (Memory.ofBytesFrom k bytes).read (k + i) = bytes[i]? := by
  induction bytes with
  | nil => intro k i; rfl
  | cons b rest ih =>
    intro k i
    cases i with
    | zero => simp [Memory.ofBytesFrom, Memory.read]
    | succ i =>
      have hread : (Memory.ofBytesFrom (k + 1) rest).read (k + (i + 1)) = rest[i]? := by
        rw [← ih (k + 1) i, Nat.add_right_comm, Nat.add_assoc]
      simpa [Memory.ofBytesFrom, Memory.read] using hread

/-- The program port answers from the byte sequence the program space was laid out from (R33, R34). -/
@[simp] theorem progRead_ofBytes (bytes : List Byte) (k : Offset) :
    progRead (Memory.ofBytes bytes) k = bytes[k.toNat]? := by
  simpa [progRead, Memory.ofBytes] using Memory.read_ofBytesFrom bytes 0 k.toNat

/-- No instruction writes the program space: Execute leaves it as it is. -/
theorem exec_keeps_prog {i : Instr} {s t : State} (h : exec i s = .next t) : t.prog = s.prog := by
  obtain ⟨-, rfl⟩ | ⟨v, -, rfl⟩ | ⟨-, rfl⟩ | ⟨-, rfl⟩ | ⟨b, -, rfl⟩ := exec_cases h
  · exact complete_prog s
  · rfl
  · rfl
  · rfl
  · exact raise_prog _ s

/-- A successful fetch only moves `PC`. -/
theorem fetchInstr_decoded_keeps_prog {s u : State} {i : Instr} (h : fetchInstr s = .decoded i u) :
    u.prog = s.prog := by
  obtain ⟨rfl, -⟩ := fetchInstr_decoded h
  exact advancePc_prog i.length s

/-- A failed fetch writes only `PC`, the fault record and the run state. -/
theorem fetchInstr_raised_keeps_prog {s t : State} (h : fetchInstr s = .raised t) : t.prog = s.prog := by
  obtain ⟨-, rfl⟩ | ⟨-, -, rfl⟩ := fetchInstr_raised h
  · exact raise_prog _ s
  · rw [raise_prog, advancePc_prog]

/-- Every step of a run keeps the program space: its fetch does, and so does its Execute phase (R33). -/
theorem step_running_keeps_prog {s t : State} (hr : s.run = .running) (h : step s = .next t) : t.prog = s.prog := by
  obtain hraised | ⟨i, u, hfetch, hexec⟩ := step_running hr h
  · exact fetchInstr_raised_keeps_prog hraised
  · exact (exec_keeps_prog hexec).trans (fetchInstr_decoded_keeps_prog hfetch)

/-- Settles O23: the layout of the supplied bytes at run start, its length, and the frame of a step of a run. -/
theorem programSpaceHoldsTheSuppliedBytes : Obligations.ProgramSpaceHoldsTheSuppliedBytes := by
  refine ⟨?contents, ?length, ?unchanged⟩
  case contents => exact fun program s k => by rw [runStart_prog, progRead_ofBytes]
  case length => exact fun program s => by rw [runStart_prog, Memory.len_ofBytes]
  case unchanged => exact fun s t => step_running_keeps_prog

end Sys2Proof.Machine
end

section
/-! Decoding (30_encoding.md R48, R53, R54): the opcode table as `decodeOpcode` has it, the length of an instruction by its
opcode byte, and the step that meets an illegal opcode byte. -/

namespace Sys2Proof.Machine

/-! ### The opcode table -/

theorem not_mem_tableOpcodes {b : Byte} :
    b ∉ tableOpcodes ↔ b ≠ 0x00#8 ∧ b ≠ 0xA9#8 ∧ b ≠ 0xAA#8 ∧ b ≠ 0xE8#8 := by
  simp [tableOpcodes]

/-- The bytes between the four of the table, as three ranges (R53). -/
theorem not_mem_tableOpcodes_iff_ranges (b : Byte) :
    b ∉ tableOpcodes ↔
      (0x01 ≤ b.toNat ∧ b.toNat ≤ 0xA8) ∨ (0xAB ≤ b.toNat ∧ b.toNat ≤ 0xE7) ∨ (0xE9 ≤ b.toNat ∧ b.toNat ≤ 0xFF) := by
  rw [not_mem_tableOpcodes]
  bv_omega

/-- A byte decodes to Unrecognized exactly when it has no row of its own in the table (R53). -/
theorem decodeOpcode_unrecognized_iff (b : Byte) :
    decodeOpcode b = .complete (.unrecognized b) ↔ b ∉ tableOpcodes := by
  obtain ⟨rfl, hd⟩ | ⟨rfl, hd⟩ | ⟨rfl, hd⟩ | ⟨rfl, hd⟩ | ⟨hb, hd⟩ := decodeOpcode_cases b
  case inr.inr.inr.inr => exact ⟨fun _ => hb, fun _ => hd⟩
  all_goals simp [hd, tableOpcodes]

/-- Only 0xA9 leaves an operand to be fetched (R48). -/
theorem decodeOpcode_complete_of_ne {b : Byte} (hb : b ≠ 0xA9#8) : ∃ i, decodeOpcode b = .complete i := by
  cases hd : decodeOpcode b with
  | complete i => exact ⟨i, rfl⟩
  | operandPending => exact absurd ((decodeOpcode_pending_iff b).mp hd) hb

/-- A number below 256 stands for a byte outside the table exactly when it is none of the table's four numbers. -/
theorem ofNat_not_mem_tableOpcodes {n : Nat} (hn : n < 256) :
    BitVec.ofNat 8 n ∉ tableOpcodes ↔ n ∉ ({0x00, 0xA9, 0xAA, 0xE8} : Finset Nat) := by
  rw [not_mem_tableOpcodes]
  simp only [Finset.mem_insert, Finset.mem_singleton]
  bv_omega

/-- The numbers of the illegal opcode bytes are all 256 without the four of the table (R53). -/
theorem toFinset_filter_not_mem_tableOpcodes :
    ((List.range 256).filter fun n => decide (BitVec.ofNat 8 n ∉ tableOpcodes)).toFinset =
      Finset.range 256 \ {0x00, 0xA9, 0xAA, 0xE8} := by
  ext n
  simp only [List.mem_toFinset, List.mem_filter, List.mem_range, decide_eq_true_eq, Finset.mem_sdiff, Finset.mem_range]
  exact and_congr_right ofNat_not_mem_tableOpcodes

/-- There are 256 - 4 illegal opcode bytes (R53). -/
theorem length_filter_not_mem_tableOpcodes :
    ((List.range 256).filter fun n => decide (BitVec.ofNat 8 n ∉ tableOpcodes)).length = 252 := by
  have hsub : ({0x00, 0xA9, 0xAA, 0xE8} : Finset Nat) ⊆ Finset.range 256 := by decide
  rw [← List.toFinset_card_of_nodup (List.nodup_range.filter _), toFinset_filter_not_mem_tableOpcodes,
    Finset.card_sdiff_of_subset hsub, Finset.card_range]
  rfl

/-! ### The first instruction of a byte sequence -/

theorem decode_cons_of_complete {b : Byte} {i : Instr} (hd : decodeOpcode b = .complete i) (rest : List Byte) :
    decode (b :: rest) = .instr i rest := by
  simp [decode, hd]

theorem decode_load_cons (v : Byte) (rest : List Byte) :
    decode (0xA9#8 :: v :: rest) = .instr (.loadAccumulatorImmediate v) rest := rfl

theorem decode_load_nil : decode [0xA9#8] = .rejected .missingOperand := rfl

/-- The two ways a byte sequence starts with an instruction: a complete opcode byte, or 0xA9 and an operand byte (R48). -/
theorem decode_cons_instr {b : Byte} {rest tail : List Byte} {i : Instr} (h : decode (b :: rest) = .instr i tail) :
    (b ≠ 0xA9#8 ∧ decodeOpcode b = .complete i ∧ tail = rest) ∨
    (b = 0xA9#8 ∧ ∃ v, rest = v :: tail ∧ i = .loadAccumulatorImmediate v) := by
  by_cases hb : b = 0xA9#8
  · subst hb
    cases rest with
    | nil => simp [decode_load_nil] at h
    | cons v rest =>
      rw [decode_load_cons] at h
      cases h
      exact .inr ⟨rfl, v, rfl, rfl⟩
  · obtain ⟨j, hd⟩ := decodeOpcode_complete_of_ne hb
    rw [decode_cons_of_complete hd] at h
    cases h
    exact .inl ⟨hb, hd, rfl⟩

/-- The length of a decoded instruction and the bytes it leaves, by its opcode byte (R48). -/
theorem decode_cons_length {b : Byte} {rest tail : List Byte} {i : Instr} (h : decode (b :: rest) = .instr i tail) :
    (i.length = 1 ∨ i.length = 2) ∧ (i.length = 2 ↔ b = 0xA9#8) ∧
      tail = (b :: rest).drop i.length ∧ i.length ≤ (b :: rest).length := by
  obtain ⟨hb, hd, rfl⟩ | ⟨rfl, v, rfl, rfl⟩ := decode_cons_instr h
  · simp [decodeOpcode_complete_length hd, hb]
  · simp [Instr.length]

/-! ### The step that meets an illegal opcode byte -/

/-- An illegal opcode byte at `PC` is consumed and raises UnimplementedOpcode with its own offset (R54). -/
theorem step_of_not_mem_tableOpcodes {s : State} {b : Byte} (hr : s.run = .running)
    (hread : progRead s.prog s.pc = some b) (hb : b ∉ tableOpcodes) :
    step s = .next (raise (.unimplementedOpcode b s.pc) (advancePc 1 s)) := by
  have hfetch : fetchInstr s = .decoded (.unrecognized b) (advancePc 1 s) :=
    fetchInstr_of_complete hread ((decodeOpcode_unrecognized_iff b).mpr hb)
  rw [step_of_decoded hr hfetch]
  simp [exec, execUnrecognized]

/-! ### The obligations -/

/-- Settles O17: the four rows by evaluation, every other byte by `decodeOpcode_unrecognized_iff`. -/
theorem decodeOpcodeIsTheTable : Obligations.DecodeOpcodeIsTheTable := by
  refine ⟨rfl, rfl, rfl, rfl, ?others, ?ranges, ?count⟩
  case others =>
    intro b h00 hA9 hAA hE8
    exact (decodeOpcode_unrecognized_iff b).mpr (not_mem_tableOpcodes.mpr ⟨h00, hA9, hAA, hE8⟩)
  case ranges => exact fun b => (decodeOpcode_unrecognized_iff b).trans (not_mem_tableOpcodes_iff_ranges b)
  case count => simpa only [decodeOpcode_unrecognized_iff] using length_filter_not_mem_tableOpcodes

/-- Settles O18: the two ways to start with an instruction, and that each opcode byte leads to its own. -/
theorem lengthFollowsFromTheOpcodeByte : Obligations.LengthFollowsFromTheOpcodeByte := by
  refine ⟨?length, ?complete, ?load⟩
  case length => exact fun b rest tail i => decode_cons_length
  case complete =>
    intro b rest hb
    obtain ⟨i, hd⟩ := decodeOpcode_complete_of_ne hb
    exact ⟨i, decode_cons_of_complete hd rest⟩
  case load => exact fun v rest => ⟨.loadAccumulatorImmediate v, decode_load_cons v rest⟩

/-- Settles O22: the step at an illegal opcode byte, and the load with any operand byte. -/
theorem illegalOpcodeEndsTheRun : Obligations.IllegalOpcodeEndsTheRun := by
  refine ⟨?illegal, decode_load_cons⟩
  case illegal =>
    intro s b hr hread h00 hA9 hAA hE8
    have hb : b ∉ tableOpcodes := not_mem_tableOpcodes.mpr ⟨h00, hA9, hAA, hE8⟩
    have hstep := step_of_not_mem_tableOpcodes hr hread hb
    have hrun : (raise (.unimplementedOpcode b s.pc) (advancePc 1 s)).run = .faulted := raise_run _ _
    exact ⟨(decodeOpcode_unrecognized_iff b).mpr hb, _, hstep, hrun, by simp, s.pc, raise_fault _ _⟩

end Sys2Proof.Machine
end

section
/-! `write_register` for either target (40_register_file_ops.md R61, R62): the register it stores into, its frame, and its two
flags as tests on the value. -/

namespace Sys2Proof.Machine

/-! ### The store and the frame -/

@[simp] theorem readReg_writeRegister_same (r : Reg) (v : Byte) (s : State) : readReg r (writeRegister r v s) = v := by
  cases r <;> rfl

theorem readReg_writeRegister_of_ne {q r : Reg} (hqr : q ≠ r) (v : Byte) (s : State) :
    readReg q (writeRegister r v s) = readReg q s := by
  cases q with
  | accumulator =>
    cases r with
    | accumulator => exact absurd rfl hqr
    | indexX => exact writeRegister_indexX_a v s
  | indexX =>
    cases r with
    | accumulator => exact writeRegister_accumulator_x v s
    | indexX => exact absurd rfl hqr

@[simp] theorem writeRegister_pc (r : Reg) (v : Byte) (s : State) : (writeRegister r v s).pc = s.pc := by cases r <;> rfl
@[simp] theorem writeRegister_run (r : Reg) (v : Byte) (s : State) : (writeRegister r v s).run = s.run := by cases r <;> rfl
@[simp] theorem writeRegister_fault (r : Reg) (v : Byte) (s : State) : (writeRegister r v s).fault = s.fault := by cases r <;> rfl
@[simp] theorem writeRegister_prog (r : Reg) (v : Byte) (s : State) : (writeRegister r v s).prog = s.prog := by cases r <;> rfl

/-- The reserved bits of `P` come through (10_state.md R19). -/
theorem writeRegister_p_reserved (r : Reg) (v : Byte) (s : State) :
    (writeRegister r v s).p &&& reservedMask = s.p &&& reservedMask := by
  rw [writeRegister_p, statusAfter_reserved]

/-! ### The flags as tests on the value -/

theorem readFlag_writeRegister_zero_iff (r : Reg) (v : Byte) (s : State) :
    readFlag .zero (writeRegister r v s) = true ↔ v = 0 := by
  rw [readFlag_writeRegister_zero, beq_iff_eq]

theorem readFlag_writeRegister_negative_iff_mask (r : Reg) (v : Byte) (s : State) :
    readFlag .negative (writeRegister r v s) = true ↔ v &&& nMask ≠ 0 := by
  rw [readFlag_writeRegister_negative, ← negativeOf_eq, negativeOf, bne_iff_ne]

/-- Bit 7 splits the bytes at 0x80 (R62). -/
theorem readFlag_writeRegister_negative_iff_le (r : Reg) (v : Byte) (s : State) :
    readFlag .negative (writeRegister r v s) = true ↔ 0x80 ≤ v.toNat := by
  have hmsb : v.getLsbD 7 = decide (0x80 ≤ v.toNat) := v.msb_eq_getLsbD_last.symm.trans v.msb_eq_decide
  rw [readFlag_writeRegister_negative, hmsb, decide_eq_true_iff]

/-- Neither the target nor the state before has a part in the flags (R62). -/
theorem readFlag_writeRegister_congr (f : Flag) (r q : Reg) (v : Byte) (s t : State) :
    readFlag f (writeRegister r v s) = readFlag f (writeRegister q v t) := by
  cases f with
  | zero => simp only [readFlag_writeRegister_zero]
  | negative => simp only [readFlag_writeRegister_negative]

/-! ### The obligations -/

/-- Settles O3: the store, the status byte of `statusAfter` with its two flags, and the frame. -/
theorem writeRegisterStoresAndSetsFlags : Obligations.WriteRegisterStoresAndSetsFlags := by
  intro r v s
  exact ⟨readReg_writeRegister_same r v s, fun _ hqr => readReg_writeRegister_of_ne hqr v s,
    readFlag_writeRegister_zero_iff r v s, readFlag_writeRegister_negative_iff_mask r v s,
    readFlag_writeRegister_negative r v s, writeRegister_p r v s, writeRegister_p_reserved r v s,
    writeRegister_pc r v s, writeRegister_run r v s, writeRegister_fault r v s, writeRegister_prog r v s⟩

/-- Settles O4: Zero tests the value against 0 and Negative against 0x80, and the three ranges of values exclude each other. -/
theorem flagsDependOnTheValueAlone : Obligations.FlagsDependOnTheValueAlone := by
  refine ⟨readFlag_writeRegister_congr, fun r v s => ?pairs, writeRegister_accumulator_x⟩
  case pairs =>
    simp only [← Bool.not_eq_true, readFlag_writeRegister_zero_iff, readFlag_writeRegister_negative_iff_le]
    refine ⟨?zero, ?positive, ?negative, ?never⟩
    all_goals bv_omega

end Sys2Proof.Machine
end

section
/-! The fetch-decode-execute loop (41_fde_loop.md R70, R72, R73): where the opcode fetch finds a byte, the effect of Execute on
each instruction, and the run state after it. -/

namespace Sys2Proof.Machine

/-! ### The opcode fetch -/

/-- In canonical form the program port answers exactly below `L` (20_memory.md R33, R34). -/
theorem progRead_isSome_iff {m : Memory} (hm : m.wf = true) (k : Offset) :
    (progRead m k).isSome = true ↔ k.toNat < m.len := by
  rw [Memory.wf, Bool.and_eq_true] at hm
  obtain ⟨hcells, -⟩ := hm
  simpa [progRead, Memory.len] using Memory.read_isSome_from m 0 hcells k.toNat

theorem progRead_eq_none_iff {m : Memory} (hm : m.wf = true) (k : Offset) :
    progRead m k = none ↔ m.len ≤ k.toNat := by
  rw [← Option.not_isSome_iff_eq_none, progRead_isSome_iff hm, Nat.not_lt]

/-- What a fetch reads depends on the program and `PC` alone; the other fields come through. -/
theorem fetchInstr_decoded_congr {s t u : State} {i : Instr} (hprog : t.prog = s.prog) (hpc : t.pc = s.pc)
    (h : fetchInstr s = .decoded i u) : fetchInstr t = .decoded i (advancePc i.length t) := by
  obtain ⟨-, ⟨b, hread, hd⟩ | ⟨v, hread, hoperand, rfl⟩⟩ := fetchInstr_decoded h
  · rw [decodeOpcode_complete_length hd]
    exact fetchInstr_of_complete (by rw [hprog, hpc, hread]) hd
  · exact fetchInstr_of_load (by rw [hprog, hpc, hread]) (by rw [hprog, hpc, hoperand])

theorem fetchInstr_decoded_keeps_run {s u : State} {i : Instr} (h : fetchInstr s = .decoded i u) : u.run = s.run := by
  obtain ⟨rfl, -⟩ := fetchInstr_decoded h
  exact advancePc_run i.length s

/-- A failed fetch writes none of `A`, `X`, `P`, whichever of its two bytes was missing. -/
theorem fetchInstr_raised_keeps_registers {s u : State} (h : fetchInstr s = .raised u) :
    u.a = s.a ∧ u.x = s.x ∧ u.p = s.p := by
  obtain ⟨-, rfl⟩ | ⟨-, -, rfl⟩ := fetchInstr_raised h
  · exact ⟨raise_a _ _, raise_x _ _, raise_p _ _⟩
  · simp

/-! ### Execute -/

theorem exec_halt (s : State) : exec .halt s = .next (complete s) := rfl

theorem exec_loadAccumulatorImmediate (v : Byte) (s : State) :
    exec (.loadAccumulatorImmediate v) s = .next (writeRegister .accumulator v s) := rfl

theorem exec_transferAccumulatorToIndex (s : State) :
    exec .transferAccumulatorToIndex s = .next (writeRegister .indexX s.a s) := rfl

theorem exec_incrementIndex (s : State) :
    exec .incrementIndex s = .next (incrementRegister Config.incSource .indexX s) := rfl

theorem exec_unrecognized (b : Byte) (s : State) :
    exec (.unrecognized b) s = .next (raise (.unimplementedOpcode b (s.pc - 1)) s) := rfl

theorem exec_total (i : Instr) (s : State) : ∃ t, exec i s = .next t := by
  cases i with
  | halt => exact ⟨_, exec_halt s⟩
  | loadAccumulatorImmediate v => exact ⟨_, exec_loadAccumulatorImmediate v s⟩
  | transferAccumulatorToIndex => exact ⟨_, exec_transferAccumulatorToIndex s⟩
  | incrementIndex => exact ⟨_, exec_incrementIndex s⟩
  | unrecognized b => exact ⟨_, exec_unrecognized b s⟩

/-! ### The termination test -/

/-- The run state Execute leaves: a function of the instruction and the run state before it, of no register (R73). -/
def runAfter : Instr → RunState → RunState
  | .halt, _ => .halted
  | .loadAccumulatorImmediate _, r => r
  | .transferAccumulatorToIndex, r => r
  | .incrementIndex, r => r
  | .unrecognized _, _ => .faulted

theorem exec_run {i : Instr} {s t : State} (h : exec i s = .next t) : t.run = runAfter i s.run := by
  obtain ⟨rfl, rfl⟩ | ⟨v, rfl, rfl⟩ | ⟨rfl, rfl⟩ | ⟨rfl, rfl⟩ | ⟨b, rfl, rfl⟩ := exec_cases h <;> rfl

/-- A step of a run that fetched `i` leaves the run state the termination test gives `i`. -/
theorem step_run_of_decoded {s u : State} {i : Instr} (hr : s.run = .running) (h : fetchInstr s = .decoded i u) :
    ∃ t, step s = .next t ∧ t.run = runAfter i .running := by
  obtain ⟨t, hexec⟩ := exec_total i u
  refine ⟨t, (step_of_decoded hr h).trans hexec, ?_⟩
  rw [exec_run hexec, fetchInstr_decoded_keeps_run h, hr]

theorem runAfter_running_eq_halted_iff (i : Instr) : runAfter i .running = .halted ↔ i = .halt := by
  cases i <;> simp [runAfter]

theorem runAfter_running_eq_faulted_iff (i : Instr) :
    runAfter i .running = .faulted ↔ ∃ b, i = .unrecognized b := by
  cases i <;> simp [runAfter]

theorem runAfter_running_eq_running_iff (i : Instr) :
    runAfter i .running = .running ↔ i ≠ .halt ∧ ∀ b, i ≠ .unrecognized b := by
  cases i <;> simp [runAfter]

/-! ### The obligations -/

/-- Settles O25: `PC` splits the program port's answers at `L`, and each fetch follows the answer. -/
theorem opcodeFetch : Obligations.OpcodeFetch := by
  intro s hwf
  refine ⟨fun hle => ?outside, fun hlt => ?inside⟩
  case outside =>
    have hread : progRead s.prog s.pc = none := (progRead_eq_none_iff hwf s.pc).mpr hle
    have hfetch := fetchInstr_of_none hread
    exact ⟨fetchByte_of_none hread, hfetch, fun hr => step_of_raised hr hfetch⟩
  case inside =>
    obtain ⟨b, hread⟩ := Option.isSome_iff_exists.mp ((progRead_isSome_iff hwf s.pc).mpr hlt)
    exact ⟨b, hread, fetchByte_of_some hread⟩

/-- Settles O32: the run state after Execute is `runAfter` of the fetched instruction, which no register has a part in. -/
theorem terminationTest : Obligations.TerminationTest := by
  refine ⟨fun s u i hr hfetch => ⟨?test, fun a x p => ?registers⟩, fun s t hr hstep hend => ?ends⟩
  case test =>
    obtain ⟨t, hstep, hrun⟩ := step_run_of_decoded hr hfetch
    refine ⟨t, hstep, ?_⟩
    rw [hrun]
    exact ⟨runAfter_running_eq_halted_iff i, runAfter_running_eq_faulted_iff i, runAfter_running_eq_running_iff i⟩
  case registers =>
    have hfetch' := fetchInstr_decoded_congr (s := s) (t := { s with a := a, x := x, p := p }) rfl rfl hfetch
    obtain ⟨t, hstep, hrun⟩ := step_run_of_decoded hr hfetch
    obtain ⟨t', hstep', hrun'⟩ := step_run_of_decoded (s := { s with a := a, x := x, p := p }) hr hfetch'
    exact ⟨t', t, hstep', hstep, hrun'.trans hrun.symm⟩
  case ends =>
    obtain hraised | ⟨i, u, hfetch, hexec⟩ := step_running hr hstep
    · exact .inr ⟨t, hraised⟩
    · rw [exec_run hexec, fetchInstr_decoded_keeps_run hfetch, hr, ne_eq, runAfter_running_eq_running_iff] at hend
      refine .inl ⟨i, u, hfetch, ?_⟩
      by_cases hhalt : i = .halt
      · exact .inl hhalt
      · exact .inr (by simpa [hhalt] using hend)

/-- Settles O8: the equations of Execute, and the step that follows each answer of the fetch. -/
theorem executeAppliesTheTableEffect : Obligations.ExecuteAppliesTheTableEffect := by
  refine ⟨fun s => ⟨exec_halt s, fun v => exec_loadAccumulatorImmediate v s, exec_transferAccumulatorToIndex s,
    exec_incrementIndex s, fun b => ?unrecognized⟩, fun s u i => step_of_decoded, fun s u hr hfetch => ?raised⟩
  case unrecognized => exact ⟨_, exec_unrecognized b s, raise_run _ s, s.pc - 1, raise_fault _ s⟩
  case raised => exact ⟨step_of_raised hr hfetch, fetchInstr_raised_keeps_registers hfetch⟩

end Sys2Proof.Machine
end

section
/-! Repeatability (70_reset_and_hazards.md R122): the host's side has no part in a run, and a run start leaves nothing of the
machine open but `A`, `X` and `P`. -/

namespace Sys2Proof.Machine

/-- The machine of `s` with another host's side. -/
def withHostSide (r : List HostRequest) (o : List Observation) (s : State) : State :=
  { s with requests := r, observations := o }

@[simp] theorem withHostSide_run (r : List HostRequest) (o : List Observation) (s : State) :
    (withHostSide r o s).run = s.run := rfl
@[simp] theorem withHostSide_prog (r : List HostRequest) (o : List Observation) (s : State) :
    (withHostSide r o s).prog = s.prog := rfl
@[simp] theorem withHostSide_pc (r : List HostRequest) (o : List Observation) (s : State) :
    (withHostSide r o s).pc = s.pc := rfl

/-- Another host's side is no difference of the machine. -/
theorem sameCore_withHostSide (r : List HostRequest) (o : List Observation) (s : State) :
    Safety.SameCore s (withHostSide r o s) :=
  ⟨rfl, rfl, rfl, rfl, rfl, rfl, rfl⟩

/-! ### A run does not see the host's side -/

theorem fetchInstr_withHostSide_of_decoded (r : List HostRequest) (o : List Observation) {s u : State} {i : Instr}
    (h : fetchInstr s = .decoded i u) : fetchInstr (withHostSide r o s) = .decoded i (withHostSide r o u) := by
  obtain ⟨rfl, -⟩ := fetchInstr_decoded h
  exact fetchInstr_decoded_congr (withHostSide_prog r o s) (withHostSide_pc r o s) h

theorem fetchInstr_withHostSide_of_raised (r : List HostRequest) (o : List Observation) {s u : State}
    (h : fetchInstr s = .raised u) : fetchInstr (withHostSide r o s) = .raised (withHostSide r o u) := by
  obtain ⟨hread, rfl⟩ | ⟨hread, hoperand, rfl⟩ := fetchInstr_raised h
  · exact fetchInstr_of_none (s := withHostSide r o s) hread
  · exact fetchInstr_of_missing (s := withHostSide r o s) hread hoperand

theorem exec_withHostSide (r : List HostRequest) (o : List Observation) {i : Instr} {s t : State}
    (h : exec i s = .next t) : exec i (withHostSide r o s) = .next (withHostSide r o t) := by
  cases i with
  | halt => cases h; rfl
  | loadAccumulatorImmediate v => cases h; rfl
  | transferAccumulatorToIndex => cases h; rfl
  | incrementIndex => cases h; rfl
  | unrecognized b => cases h; rfl

/-- A step of a run changes the machine the same way whatever the host's side, and leaves that side alone (R94). -/
theorem step_withHostSide (r : List HostRequest) (o : List Observation) {s t : State} (hr : s.run = .running)
    (h : step s = .next t) : step (withHostSide r o s) = .next (withHostSide r o t) := by
  have hr' : (withHostSide r o s).run = .running := hr
  obtain hraised | ⟨i, u, hfetch, hexec⟩ := step_running hr h
  · exact step_of_raised hr' (fetchInstr_withHostSide_of_raised r o hraised)
  · rw [step_of_decoded hr' (fetchInstr_withHostSide_of_decoded r o hfetch), exec_withHostSide r o hexec]

/-- A step of a run always answers a next state (R74). -/
theorem exists_step_of_running {s : State} (hr : s.run = .running) : ∃ t, step s = .next t := by
  cases hfetch : fetchInstr s with
  | decoded i u =>
    obtain ⟨t, hexec⟩ := exec_total i u
    exact ⟨t, (step_of_decoded hr hfetch).trans hexec⟩
  | raised u => exact ⟨u, step_of_raised hr hfetch⟩

theorem runToEnd_withHostSide (r : List HostRequest) (o : List Observation) (n : Nat) :
    ∀ s : State, Safety.runToEnd n (withHostSide r o s) = withHostSide r o (Safety.runToEnd n s) := by
  induction n with
  | zero => intro s; rfl
  | succ n ih =>
    intro s
    by_cases hr : s.run = .running
    · obtain ⟨t, hstep⟩ := exists_step_of_running hr
      rw [runToEnd_succ hr hstep, runToEnd_succ (s := withHostSide r o s) hr (step_withHostSide r o hr hstep), ih t]
    · rw [runToEnd_of_not_running hr, runToEnd_of_not_running (s := withHostSide r o s) hr]

/-! ### Two runs of one program -/

/-- A run start overwrites everything of the machine but `A`, `X` and `P` (R29). -/
theorem runStart_eq_withHostSide (program : List Byte) {s t : State} (ha : s.a = t.a) (hx : s.x = t.x) (hp : s.p = t.p) :
    runStart program t = withHostSide t.requests t.observations (runStart program s) := by
  simp only [runStart, withHostSide, ha, hx, hp]

/-- Two runs of one program from equal `A`, `X`, `P` stand in equal machines after any number of steps (R80, R122). -/
theorem sameCore_runToEnd_runStart (program : List Byte) {s t : State} (n : Nat) (ha : s.a = t.a) (hx : s.x = t.x)
    (hp : s.p = t.p) :
    Safety.SameCore (Safety.runToEnd n (runStart program s)) (Safety.runToEnd n (runStart program t)) := by
  rw [runStart_eq_withHostSide program ha hx hp, runToEnd_withHostSide]
  exact sameCore_withHostSide _ _ _

/-- Settles O43: the two run starts differ in the host's side at most, which a run carries along unseen; two constructed states
have equal `A`, `X`, `P`. -/
theorem runsOfOneProgramAgree : Obligations.RunsOfOneProgramAgree := by
  refine ⟨fun program s t n => sameCore_runToEnd_runStart program n, fun program s t n => ?constructed⟩
  case constructed =>
    have ha : (construct s).a = (construct t).a := by rw [construct_a, construct_a]
    have hx : (construct s).x = (construct t).x := by rw [construct_x, construct_x]
    have hp : (construct s).p = (construct t).p := by rw [construct_p, construct_p]
    exact sameCore_runToEnd_runStart program n ha hx hp

end Sys2Proof.Machine
end

section
/-! The round trip of decoder and encoder (30_encoding.md sections 1 to 4), and what the decoder rejects. -/

namespace Sys2Proof.Machine

theorem wellFormed_unrecognized_iff (b : Byte) : (Instr.unrecognized b).wellFormed = true ↔ b ∉ tableOpcodes := by
  simp [Instr.wellFormed]

/-- An instruction that is complete with its opcode byte is well formed, and that byte is its encoding (R52, R53). -/
theorem encode_of_decodeOpcode {b : Byte} {i : Instr} (h : decodeOpcode b = .complete i) :
    i.wellFormed = true ∧ encode i = [b] := by
  obtain ⟨rfl, hd⟩ | ⟨rfl, hd⟩ | ⟨rfl, hd⟩ | ⟨rfl, hd⟩ | ⟨hb, hd⟩ := decodeOpcode_cases b
  all_goals rw [hd] at h; cases h
  case inr.inr.inr.inr.refl => exact ⟨(wellFormed_unrecognized_iff b).mpr hb, rfl⟩
  all_goals exact ⟨rfl, rfl⟩

theorem decode_encode_append {i : Instr} (hi : i.wellFormed = true) (rest : List Byte) :
    decode (encode i ++ rest) = .instr i rest := by
  cases i with
  | halt => rfl
  | loadAccumulatorImmediate v => exact decode_load_cons v rest
  | transferAccumulatorToIndex => rfl
  | incrementIndex => rfl
  | unrecognized b =>
    have hb : b ∉ tableOpcodes := (wellFormed_unrecognized_iff b).mp hi
    exact decode_cons_of_complete ((decodeOpcode_unrecognized_iff b).mpr hb) rest

/-- What decodes is well formed, and its encoding is the bytes consumed (R48 to R53). -/
theorem encode_of_decode {bytes rest : List Byte} {i : Instr} (h : decode bytes = .instr i rest) :
    i.wellFormed = true ∧ bytes = encode i ++ rest := by
  cases bytes with
  | nil => cases h
  | cons b tail =>
    obtain ⟨-, hd, rfl⟩ | ⟨rfl, v, rfl, rfl⟩ := decode_cons_instr h
    · obtain ⟨hwf, henc⟩ := encode_of_decodeOpcode hd
      exact ⟨hwf, by rw [henc]; rfl⟩
    · exact ⟨rfl, rfl⟩

theorem decode_nil : decode [] = .rejected .missingOpcode := rfl

/-- With an opcode byte there, only the operand of a load can be missing (30_encoding.md section 3). -/
theorem decode_cons_rejected_iff (b : Byte) (rest : List Byte) (e : DecodeError) :
    decode (b :: rest) = .rejected e ↔ b = 0xA9#8 ∧ rest = [] ∧ e = .missingOperand := by
  by_cases hb : b = 0xA9#8
  · subst hb
    cases rest with
    | nil => simp [decode_load_nil, eq_comm]
    | cons v rest => simp [decode_load_cons]
  · obtain ⟨i, hd⟩ := decodeOpcode_complete_of_ne hb
    simp [decode_cons_of_complete hd, hb]

/-- Settles O19: the decoder finds the encoder's row again, and an illegal byte has no row. -/
theorem decodeOfEncode : Obligations.DecodeOfEncode := fun _ rest hi => decode_encode_append hi rest

/-- Settles O20: the two ways to decode an instruction, each against the encoder. -/
theorem encodeOfDecode : Obligations.EncodeOfDecode := fun _ _ _ => encode_of_decode

/-- Settles O21: no opcode byte, or a load without its operand byte. -/
theorem decodeRejectsOnlyMissingBytes : Obligations.DecodeRejectsOnlyMissingBytes := by
  intro bytes e
  cases bytes with
  | nil => simp [decode_nil, eq_comm]
  | cons b rest => simp [decode_cons_rejected_iff, and_assoc]

/-- Settles O16: the opcode bytes of the table, and 0xEA outside it. -/
theorem writtenOutWordsDecode : Obligations.WrittenOutWordsDecode := by
  have hEA : decodeOpcode 0xEA#8 = .complete (.unrecognized 0xEA#8) := (decodeOpcode_unrecognized_iff _).mpr (by decide)
  exact ⟨decode_cons_of_complete rfl [], decode_load_cons _ [], decode_cons_of_complete rfl [],
    decode_cons_of_complete rfl [], decode_cons_of_complete hEA []⟩

end Sys2Proof.Machine
end

section
/-! A single flag (40_register_file_ops.md R64, R65), both flags of a value, and `increment_register` under both settings of
INC_SOURCE (R63, R67). -/

namespace Sys2Proof.Machine

/-! ### One flag, one bit -/

/-- The bit of `P` that holds a flag (10_state.md R17, R18). -/
def Flag.bit : Flag → Nat
  | .zero => 1
  | .negative => 7

theorem Flag.mask_eq_twoPow (f : Flag) : f.mask = BitVec.twoPow 8 f.bit := by cases f <;> rfl

theorem Flag.bit_lt (f : Flag) : f.bit < 8 := by cases f <;> decide

/-- `write_flag` writes the flag's bit and no other (R65). -/
theorem getLsbD_writeFlag (f : Flag) (v : Bool) (s : State) (j : Nat) :
    (writeFlag f v s).p.getLsbD j = if j = f.bit then v else s.p.getLsbD j := by
  have hbit := f.bit_lt
  rw [writeFlag_p, f.mask_eq_twoPow]
  by_cases hj : j = f.bit
  · cases v <;> simp [hj, hbit]
  · have hlt : s.p.getLsbD j = true → j < 8 := BitVec.lt_of_getLsbD
    cases v with
    | true => simp [hj, Ne.symm hj]
    | false => simpa [hj, Ne.symm hj] using hlt

theorem writeFlag_eq (f : Flag) (v : Bool) (s : State) : writeFlag f v s = { s with p := (writeFlag f v s).p } := rfl

/-- Settles O5: the flag's mask is the power of two of its bit. -/
theorem writeFlagChangesExactlyOneBit : Obligations.WriteFlagChangesExactlyOneBit := fun v s =>
  ⟨getLsbD_writeFlag .zero v s, getLsbD_writeFlag .negative v s, readFlag_zero s, readFlag_negative s,
    fun f => writeFlag_eq f v s⟩

/-! ### The flags of a value -/

theorem flagsDescribe_writeRegister (r : Reg) (v : Byte) (s : State) : Safety.FlagsDescribe v (writeRegister r v s) :=
  ⟨readFlag_writeRegister_zero r v s, readFlag_writeRegister_negative r v s⟩

/-- The recomputed status keeps nothing of the old one but the reserved bits (R61). -/
theorem statusAfter_congr {p q : Byte} (h : p &&& reservedMask = q &&& reservedMask) (v : Byte) :
    statusAfter p v = statusAfter q v := by
  simp only [statusAfter, h]

/-! ### `increment_register` -/

theorem incrementRegister_eq (src : IncSource) (r : Reg) (s : State) :
    incrementRegister src r s = writeRegister r (incrementOperand src r s + 1) s := rfl

theorem incrementRegister_indexX_eq (src : IncSource) (s : State) :
    incrementRegister src .indexX s =
      { s with x := incrementOperand src .indexX s + 1, p := statusAfter s.p (incrementOperand src .indexX s + 1) } := by
  rw [incrementRegister_eq, writeRegister_indexX_eq]

theorem readReg_incrementRegister_same (src : IncSource) (r : Reg) (s : State) :
    readReg r (incrementRegister src r s) = incrementOperand src r s + 1 := by
  rw [incrementRegister_eq, readReg_writeRegister_same]

theorem incrementOperand_accumulator (r : Reg) (s : State) : incrementOperand .accumulator r s = s.a := rfl

theorem incrementOperand_indexX (r : Reg) (s : State) : incrementOperand .indexX r s = readReg r s := rfl

/-- 8-bit wraparound (R67). -/
theorem toNat_byte_add_one (v : Byte) : (v + 1).toNat = (v.toNat + 1) % 256 := by
  simp [BitVec.toNat_add]

/-- Reading the accumulator, a second increment finds the same source, so it writes the same value and flags. -/
theorem incrementRegister_accumulator_idem (s : State) :
    incrementRegister .accumulator .indexX (incrementRegister .accumulator .indexX s) =
      incrementRegister .accumulator .indexX s := by
  simp only [incrementRegister_indexX_eq, incrementOperand_accumulator]
  rw [statusAfter_congr (statusAfter_reserved s.p (s.a + 1))]

/-- The accumulator being the operand, the old `X` is overwritten unread. -/
theorem incrementRegister_accumulator_ignores_x (s : State) (v : Byte) :
    incrementRegister .accumulator .indexX { s with x := v } = incrementRegister .accumulator .indexX s := rfl

/-- `X` being the operand, `A` comes through unread. -/
theorem incrementRegister_indexX_ignores_a (s : State) (v : Byte) :
    incrementRegister .indexX .indexX { s with a := v } = { incrementRegister .indexX .indexX s with a := v } := rfl

/-- Reading the target itself, each increment adds one more. -/
theorem iterate_incrementRegister_indexX_x (s : State) (n : Nat) :
    ((incrementRegister .indexX .indexX)^[n] s).x = s.x + BitVec.ofNat 8 n := by
  induction n with
  | zero => simp
  | succ n ih =>
    rw [Function.iterate_succ_apply', incrementRegister_indexX_x, incrementOperand_indexX]
    simp [readReg, ih, BitVec.ofNat_add, BitVec.add_assoc]

/-- The two settings of INC_SOURCE differ in the operand, which adding one does not hide. -/
theorem incrementRegister_settings_agree_iff (s : State) :
    incrementRegister .accumulator .indexX s = incrementRegister .indexX .indexX s ↔ s.a = s.x := by
  constructor
  · intro h
    have hx : s.a + 1 = s.x + 1 := congrArg State.x h
    exact add_right_cancel hx
  · intro h
    have hoperand : incrementOperand .accumulator .indexX s = incrementOperand .indexX .indexX s := h
    rw [incrementRegister_eq, hoperand, ← incrementRegister_eq]

/-- Settles O6: `increment_register` is `write_register` of the selected operand plus one. -/
theorem incrementAddsOneModulo256 : Obligations.IncrementAddsOneModulo256 := by
  intro r s
  refine ⟨?accumulator, ?indexX, fun src q hq => ?others, fun src => ⟨?flags, ?reserved, ?pc⟩⟩
  case accumulator =>
    rw [readReg_incrementRegister_same, incrementOperand_accumulator, toNat_byte_add_one]
  case indexX => rw [readReg_incrementRegister_same, incrementOperand_indexX, toNat_byte_add_one]
  case others => exact readReg_writeRegister_of_ne hq _ s
  case flags =>
    rw [readReg_incrementRegister_same]
    exact flagsDescribe_writeRegister r _ s
  case reserved => exact writeRegister_p_reserved r _ s
  case pc => exact writeRegister_pc r _ s

/-- Settles O7: which register is the operand, and that the target's old value and status leave no trace. -/
theorem incrementSettingsCompared : Obligations.IncrementSettingsCompared :=
  ⟨incrementRegister_accumulator_idem, incrementRegister_accumulator_ignores_x, iterate_incrementRegister_indexX_x,
    incrementRegister_indexX_ignores_a, incrementRegister_settings_agree_iff⟩

end Sys2Proof.Machine
end

section
/-! The effect of Execute on each instruction as one record update, and the frame of each (10_state.md section 1, 42 to
44_instr). -/

namespace Sys2Proof.Machine

/-! ### What Execute leaves unchanged -/

/-- No instruction writes `PC` in its Execute phase (10_state.md section 1.3). -/
theorem exec_keeps_pc {i : Instr} {s t : State} (h : exec i s = .next t) : t.pc = s.pc := by
  obtain ⟨-, rfl⟩ | ⟨v, -, rfl⟩ | ⟨-, rfl⟩ | ⟨-, rfl⟩ | ⟨b, -, rfl⟩ := exec_cases h <;> rfl

theorem exec_keeps_hostSide {i : Instr} {s t : State} (h : exec i s = .next t) : Safety.SameHostSide s t := by
  obtain ⟨-, rfl⟩ | ⟨v, -, rfl⟩ | ⟨-, rfl⟩ | ⟨-, rfl⟩ | ⟨b, -, rfl⟩ := exec_cases h <;> exact ⟨rfl, rfl⟩

theorem exec_keeps_memory {i : Instr} {s t : State} (h : exec i s = .next t) : Safety.SameMemory s t := by
  intro k
  rw [exec_keeps_prog h]

/-- The status byte either stays or is recomputed from a value, so its reserved bits stay (R19). -/
theorem exec_keeps_reserved {i : Instr} {s t : State} (h : exec i s = .next t) :
    t.p &&& reservedMask = s.p &&& reservedMask := by
  obtain ⟨-, rfl⟩ | ⟨v, -, rfl⟩ | ⟨-, rfl⟩ | ⟨-, rfl⟩ | ⟨b, -, rfl⟩ := exec_cases h
  · rw [complete_p]
  · exact statusAfter_reserved s.p v
  · exact statusAfter_reserved s.p s.a
  · exact statusAfter_reserved s.p (s.a + 1)
  · rw [raise_p]

/-- Only the load writes `A` (R14). -/
theorem exec_keeps_a {i : Instr} {s t : State} (h : exec i s = .next t) (hi : ∀ v, i ≠ .loadAccumulatorImmediate v) :
    t.a = s.a := by
  obtain ⟨-, rfl⟩ | ⟨v, rfl, -⟩ | ⟨-, rfl⟩ | ⟨-, rfl⟩ | ⟨b, -, rfl⟩ := exec_cases h
  case inr.inl => exact absurd rfl (hi v)
  all_goals rfl

/-- Only the transfer and the increment write `X` (R15). -/
theorem exec_keeps_x {i : Instr} {s t : State} (h : exec i s = .next t) (ht : i ≠ .transferAccumulatorToIndex)
    (hinc : i ≠ .incrementIndex) : t.x = s.x := by
  obtain ⟨-, rfl⟩ | ⟨v, -, rfl⟩ | ⟨rfl, -⟩ | ⟨rfl, -⟩ | ⟨b, -, rfl⟩ := exec_cases h
  case inr.inr.inl => exact absurd rfl ht
  case inr.inr.inr.inl => exact absurd rfl hinc
  all_goals rfl

/-- Only Unrecognized writes the fault record (60_exceptions.md R99). -/
theorem exec_keeps_fault {i : Instr} {s t : State} (h : exec i s = .next t) (hi : ∀ b, i ≠ .unrecognized b) :
    t.fault = s.fault := by
  obtain ⟨-, rfl⟩ | ⟨v, -, rfl⟩ | ⟨-, rfl⟩ | ⟨-, rfl⟩ | ⟨b, rfl, -⟩ := exec_cases h
  case inr.inr.inr.inr => exact absurd rfl (hi b)
  all_goals rfl

/-- Only a register write recomputes the flags (R30). -/
theorem exec_ender_keeps_p {i : Instr} {s t : State} (h : exec i s = .next t)
    (hi : i = .halt ∨ ∃ b, i = .unrecognized b) : t.p = s.p := by
  obtain rfl | ⟨b, rfl⟩ := hi
  · cases h
    exact complete_p s
  · cases h
    exact raise_p _ s

/-! ### The obligations -/

/-- Settles O9: `complete` writes the run state. -/
theorem haltEndsTheRunOnly : Obligations.HaltEndsTheRunOnly := exec_halt

/-- Settles O10: `write_register` of the operand into `A`, as one record update. -/
theorem loadWritesTheAccumulator : Obligations.LoadWritesTheAccumulator := by
  intro v s
  rw [exec_loadAccumulatorImmediate, writeRegister_accumulator_eq]
  rfl

/-- Settles O11: `write_register` of `A` into `X`, as one record update. -/
theorem transferCopiesAccumulatorToIndex : Obligations.TransferCopiesAccumulatorToIndex := by
  intro s
  rw [exec_transferAccumulatorToIndex, writeRegister_indexX_eq]
  rfl

/-- Settles O12: `increment_register` of `X` with the accumulator as its operand, as one record update. -/
theorem incrementIndexSetsIndexToAccumulatorPlusOne : Obligations.IncrementIndexSetsIndexToAccumulatorPlusOne := by
  intro s
  rw [exec_incrementIndex, incrementRegister_indexX_eq]
  rfl

/-- Settles O13: `raise` writes the fault record and the run state. -/
theorem unrecognizedRaisesUnimplementedOpcode : Obligations.UnrecognizedRaisesUnimplementedOpcode := exec_unrecognized

/-- Settles O14: the frame of Execute, and the one register each writer may change. -/
theorem registerWritersFrame : Obligations.RegisterWritersFrame := by
  intro i s t h hi
  refine ⟨?x, ?a, exec_keeps_reserved h, ?run, ?fault, exec_keeps_hostSide h, exec_keeps_memory h⟩
  case x =>
    rintro ⟨v, rfl⟩
    exact exec_keeps_x h nofun nofun
  case a =>
    rintro (rfl | rfl)
    · exact exec_keeps_a h nofun
    · exact exec_keeps_a h nofun
  case run =>
    rw [exec_run h]
    obtain ⟨v, rfl⟩ | rfl | rfl := hi <;> rfl
  case fault =>
    obtain ⟨v, rfl⟩ | rfl | rfl := hi
    all_goals exact exec_keeps_fault h nofun

/-- Settles O15: neither of the two run enders is a register writer, and Halt is not Unrecognized. -/
theorem runEndersFrame : Obligations.RunEndersFrame := by
  intro i s t h hi
  refine ⟨?a, ?x, exec_ender_keeps_p h hi, ?fault, exec_keeps_hostSide h, exec_keeps_memory h⟩
  case a => obtain rfl | ⟨b, rfl⟩ := hi <;> exact exec_keeps_a h nofun
  case x => obtain rfl | ⟨b, rfl⟩ := hi <;> exact exec_keeps_x h nofun nofun
  case fault =>
    rintro rfl
    exact exec_keeps_fault h nofun

end Sys2Proof.Machine
end

section
/-! Fetching (41_fde_loop.md R70, R71; 30_encoding.md R55; 20_memory.md R47): how far `PC` moves, which bytes a fetch and a
step depend on, and the decoder on the bytes at `PC`. -/

namespace Sys2Proof.Machine

/-! ### Offsets below `L` -/

/-- A byte that is read stands below `L` (20_memory.md R34). -/
theorem toNat_lt_len_of_progRead {m : Memory} (hm : m.wf = true) {k : Offset} {b : Byte} (h : progRead m k = some b) :
    k.toNat < m.len :=
  (progRead_isSome_iff hm k).mp (Option.isSome_of_eq_some h)

/-- An offset that is read has a next one: at most 65535 bytes leave no wrap (10_state.md R21, decision D2). -/
theorem toNat_add_one_of_progRead {m : Memory} (hm : m.wf = true) {k : Offset} {b : Byte} (h : progRead m k = some b) :
    (k + 1).toNat = k.toNat + 1 := by
  have hlen := Memory.wf_len hm
  have hlt := toNat_lt_len_of_progRead hm h
  bv_omega

/-! ### The bytes a fetch depends on -/

/-- Equal bytes at each state's own `PC`, the operand byte of a load included, fetch the same instruction (R55). -/
theorem fetchInstr_decoded_of_same_bytes {s t u : State} {i : Instr} (hop : progRead t.prog t.pc = progRead s.prog s.pc)
    (harg : progRead s.prog s.pc = some 0xA9#8 → progRead t.prog (t.pc + 1) = progRead s.prog (s.pc + 1))
    (h : fetchInstr s = .decoded i u) : fetchInstr t = .decoded i (advancePc i.length t) := by
  obtain ⟨-, ⟨b, hread, hd⟩ | ⟨v, hread, hoperand, rfl⟩⟩ := fetchInstr_decoded h
  · rw [decodeOpcode_complete_length hd]
    exact fetchInstr_of_complete (hop.trans hread) hd
  · exact fetchInstr_of_load (hop.trans hread) ((harg hread).trans hoperand)

/-- With equal bytes at each own `PC`, a fetch that raises misses the same byte, opcode or operand, in both states. -/
theorem fetchInstr_raised_of_same_bytes {s t u : State} (hop : progRead t.prog t.pc = progRead s.prog s.pc)
    (harg : progRead s.prog s.pc = some 0xA9#8 → progRead t.prog (t.pc + 1) = progRead s.prog (s.pc + 1))
    (h : fetchInstr s = .raised u) :
    (u = raise (.outOfBoundsFetch s.pc) s ∧ fetchInstr t = .raised (raise (.outOfBoundsFetch t.pc) t)) ∨
    (u = raise (.outOfBoundsFetch (s.pc + 1)) (advancePc 1 s) ∧
      fetchInstr t = .raised (raise (.outOfBoundsFetch (t.pc + 1)) (advancePc 1 t))) := by
  obtain ⟨hread, rfl⟩ | ⟨hread, hoperand, rfl⟩ := fetchInstr_raised h
  · exact .inl ⟨rfl, fetchInstr_of_none (hop.trans hread)⟩
  · exact .inr ⟨rfl, fetchInstr_of_missing (hop.trans hread) ((harg hread).trans hoperand)⟩

/-! ### Another program -/

/-- The machine of `s` with another program. -/
def withProg (m : Memory) (s : State) : State := { s with prog := m }

@[simp] theorem withProg_run (m : Memory) (s : State) : (withProg m s).run = s.run := rfl
@[simp] theorem withProg_pc (m : Memory) (s : State) : (withProg m s).pc = s.pc := rfl
@[simp] theorem withProg_prog (m : Memory) (s : State) : (withProg m s).prog = m := rfl

/-- Execute does not read the program. -/
theorem exec_withProg (m : Memory) {i : Instr} {s t : State} (h : exec i s = .next t) :
    exec i (withProg m s) = .next (withProg m t) := by
  cases i with
  | halt => cases h; rfl
  | loadAccumulatorImmediate v => cases h; rfl
  | transferAccumulatorToIndex => cases h; rfl
  | incrementIndex => cases h; rfl
  | unrecognized b => cases h; rfl

/-- A step depends on the bytes it fetches and on no other byte of the program (R47). -/
theorem step_withProg {s t : State} {m : Memory} (hr : s.run = .running) (h : step s = .next t)
    (hop : progRead m s.pc = progRead s.prog s.pc)
    (harg : progRead s.prog s.pc = some 0xA9#8 → progRead m (s.pc + 1) = progRead s.prog (s.pc + 1)) :
    step (withProg m s) = .next (withProg m t) := by
  have hr' : (withProg m s).run = .running := hr
  obtain hraised | ⟨i, u, hfetch, hexec⟩ := step_running hr h
  · obtain ⟨rfl, hfetch⟩ | ⟨rfl, hfetch⟩ := fetchInstr_raised_of_same_bytes (t := withProg m s) hop harg hraised
    · exact step_of_raised hr' hfetch
    · exact step_of_raised hr' hfetch
  · have hfetch' := fetchInstr_decoded_of_same_bytes (t := withProg m s) hop harg hfetch
    obtain ⟨rfl, -⟩ := fetchInstr_decoded hfetch
    exact (step_of_decoded hr' hfetch').trans (exec_withProg m hexec)

/-! ### The decoder on the bytes at `PC` -/

/-- The first of the bytes from an offset on is the byte at that offset. -/
theorem bytesFrom_eq_cons {m : Memory} {n : Nat} {k : Offset} {b : Byte} {tail : List Byte}
    (h : bytesFrom m n k = b :: tail) : ∃ n', n = n' + 1 ∧ progRead m k = some b ∧ tail = bytesFrom m n' (k + 1) := by
  cases n with
  | zero => cases h
  | succ n =>
    cases hread : progRead m k with
    | none => simp [bytesFrom, hread] at h
    | some c =>
      simp only [bytesFrom, hread, List.cons.injEq] at h
      obtain ⟨rfl, rfl⟩ := h
      exact ⟨n, rfl, rfl, rfl⟩

/-- The fetch of a step reads the instruction the decoder finds in the bytes at `PC` (41_fde_loop.md section 2). -/
theorem fetchInstr_of_decode_bytesFrom {s : State} {n : Nat} {i : Instr} {rest : List Byte}
    (h : decode (bytesFrom s.prog n s.pc) = .instr i rest) : fetchInstr s = .decoded i (advancePc i.length s) := by
  cases hbytes : bytesFrom s.prog n s.pc with
  | nil => simp [hbytes, decode_nil] at h
  | cons b tail =>
    rw [hbytes] at h
    obtain ⟨n', -, hread, htail⟩ := bytesFrom_eq_cons hbytes
    obtain ⟨-, hd, -⟩ | ⟨rfl, v, rfl, rfl⟩ := decode_cons_instr h
    · rw [decodeOpcode_complete_length hd]
      exact fetchInstr_of_complete hread hd
    · obtain ⟨-, -, hoperand, -⟩ := bytesFrom_eq_cons htail.symm
      exact fetchInstr_of_load hread hoperand

/-! ### The obligations -/

/-- Settles O24: an offset is listed in canonical form exactly below `L`. -/
theorem progReadAnswersExactlyBelowLength : Obligations.ProgReadAnswersExactlyBelowLength :=
  fun _ k hm => progRead_isSome_iff hm k

/-- Settles O26: the operand's offset is `L`, where the program port answers nothing. -/
theorem missingOperandFaultsAtItsOffset : Obligations.MissingOperandFaultsAtItsOffset := by
  intro s hm hr hread hlast
  have hpc : (s.pc + 1).toNat = s.pc.toNat + 1 := toNat_add_one_of_progRead hm hread
  have hoperand : progRead s.prog (s.pc + 1) = none := (progRead_eq_none_iff hm _).mpr (by omega)
  exact step_of_raised hr (fetchInstr_of_missing hread hoperand)

/-- Settles O27: the fetch finds the decoded instruction, and the step executes what it fetched. -/
theorem stepRunsTheDecodedInstruction : Obligations.StepRunsTheDecodedInstruction := by
  intro s i rest hr h
  obtain ⟨hwf, -⟩ := encode_of_decode h
  exact ⟨hwf, step_of_decoded hr (fetchInstr_of_decode_bytesFrom h)⟩

/-- Settles O28: what a successful fetch leaves, and the frame of Execute. -/
theorem pcAdvancesByTheLengthOnly : Obligations.PcAdvancesByTheLengthOnly := by
  refine ⟨fun s u i h => ?fetch, fun i u t => exec_keeps_pc⟩
  case fetch =>
    obtain ⟨hu, -⟩ := fetchInstr_decoded h
    exact hu

/-- Settles O29: every way to fetch, and every way a fetch raises, by the bytes at `PC`. -/
theorem decodingIgnoresTheRegisters : Obligations.DecodingIgnoresTheRegisters := by
  refine fun s t hop harg => ⟨fun i u => fetchInstr_decoded_of_same_bytes hop harg, fun u h => ?raised⟩
  case raised =>
    obtain ⟨-, hfetch⟩ | ⟨-, hfetch⟩ := fetchInstr_raised_of_same_bytes hop harg h
    · exact ⟨_, hfetch⟩
    · exact ⟨_, hfetch⟩

/-- Settles O30: the fetch by the bytes it reads, and Execute, which reads no program. -/
theorem unfetchedBytesHaveNoEffect : Obligations.UnfetchedBytesHaveNoEffect :=
  fun _ _ _ => step_withProg

/-- Settles O31: a step of a run fetches or raises; without a run it is the host's turn. -/
theorem stepAlwaysAnswersANextState : Obligations.StepAlwaysAnswersANextState := by
  refine ⟨fun s => ?step, exec_total⟩
  case step =>
    by_cases hr : s.run = .running
    · exact exists_step_of_running hr
    · exact ⟨_, step_not_running hr⟩

end Sys2Proof.Machine
end

section
/-! One step of a run (41_fde_loop.md sections 3 and 4): its run state, its registers and flags, and its host's side. -/

namespace Sys2Proof.Machine

/-- `step_running_total` for a step that answered `t`: everything it can have done, by the bytes at `PC` (R74). -/
theorem step_running_cases {s t : State} (hr : s.run = .running) (h : step s = .next t) :
    (progRead s.prog s.pc = none ∧ t = raise (.outOfBoundsFetch s.pc) s) ∨
    (progRead s.prog s.pc = some 0xA9#8 ∧ progRead s.prog (s.pc + 1) = none ∧
      t = raise (.outOfBoundsFetch (s.pc + 1)) (advancePc 1 s)) ∨
    (progRead s.prog s.pc = some 0x00#8 ∧ t = complete (advancePc 1 s)) ∨
    (∃ v, progRead s.prog s.pc = some 0xA9#8 ∧ progRead s.prog (s.pc + 1) = some v ∧
      t = { s with a := v, p := statusAfter s.p v, pc := s.pc + 2 }) ∨
    (progRead s.prog s.pc = some 0xAA#8 ∧ t = { s with x := s.a, p := statusAfter s.p s.a, pc := s.pc + 1 }) ∨
    (progRead s.prog s.pc = some 0xE8#8 ∧
      t = { s with x := s.a + 1, p := statusAfter s.p (s.a + 1), pc := s.pc + 1 }) ∨
    (∃ b, b ∉ tableOpcodes ∧ progRead s.prog s.pc = some b ∧
      t = raise (.unimplementedOpcode b s.pc) (advancePc 1 s)) := by
  simpa only [h, Host.Outcome.next.injEq] using step_running_total s hr

/-! ### The run state after a step -/

theorem fetchInstr_raised_run {s u : State} (h : fetchInstr s = .raised u) : u.run = .faulted := by
  obtain ⟨-, rfl⟩ | ⟨-, -, rfl⟩ := fetchInstr_raised h
  · exact raise_run _ _
  · exact raise_run _ _

/-- A step of a run leaves Faulted after a failed fetch, else what the termination test gives the fetched instruction. -/
theorem step_running_run {s t : State} (hr : s.run = .running) (h : step s = .next t) :
    (fetchInstr s = .raised t ∧ t.run = .faulted) ∨
    ∃ i u, fetchInstr s = .decoded i u ∧ exec i u = .next t ∧ t.run = runAfter i .running := by
  obtain hraised | ⟨i, u, hfetch, hexec⟩ := step_running hr h
  · exact .inl ⟨hraised, fetchInstr_raised_run hraised⟩
  · refine .inr ⟨i, u, hfetch, hexec, ?_⟩
    rw [exec_run hexec, fetchInstr_decoded_keeps_run hfetch, hr]

theorem runAfter_running_ne_idle (i : Instr) : runAfter i .running ≠ .idle := by
  cases i <;> nofun

theorem isWriter_iff (i : Instr) :
    ((∃ v, i = .loadAccumulatorImmediate v) ∨ i = .transferAccumulatorToIndex ∨ i = .incrementIndex) ↔
      i ≠ .halt ∧ ∀ b, i ≠ .unrecognized b := by
  cases i <;> simp

/-- A run is Halted exactly by decoding Halt (R78). -/
theorem step_run_eq_halted_iff {s t : State} (hr : s.run = .running) (h : step s = .next t) :
    t.run = .halted ↔ ∃ u, fetchInstr s = .decoded .halt u := by
  obtain ⟨hfetch, hrun⟩ | ⟨i, u, hfetch, -, hrun⟩ := step_running_run hr h
  · simp [hfetch, hrun]
  · simp [hfetch, hrun, runAfter_running_eq_halted_iff]

/-- A run is Faulted exactly by a failed fetch or by Unrecognized (R78). -/
theorem step_run_eq_faulted_iff {s t : State} (hr : s.run = .running) (h : step s = .next t) :
    t.run = .faulted ↔ (∃ u, fetchInstr s = .raised u) ∨ ∃ b u, fetchInstr s = .decoded (.unrecognized b) u := by
  obtain ⟨hfetch, hrun⟩ | ⟨i, u, hfetch, -, hrun⟩ := step_running_run hr h
  · simp [hfetch, hrun]
  · simp [hfetch, hrun, runAfter_running_eq_faulted_iff]

/-- A run goes on exactly by a register-writing instruction (R78). -/
theorem step_run_eq_running_iff {s t : State} (hr : s.run = .running) (h : step s = .next t) :
    t.run = .running ↔ ∃ i u, fetchInstr s = .decoded i u ∧
      ((∃ v, i = .loadAccumulatorImmediate v) ∨ i = .transferAccumulatorToIndex ∨ i = .incrementIndex) := by
  simp only [isWriter_iff]
  obtain ⟨hfetch, hrun⟩ | ⟨i, u, hfetch, -, hrun⟩ := step_running_run hr h
  · simp [hfetch, hrun]
  · simp [hfetch, hrun, runAfter_running_eq_running_iff]

theorem step_running_ne_idle {s t : State} (hr : s.run = .running) (h : step s = .next t) : t.run ≠ .idle := by
  obtain ⟨-, hrun⟩ | ⟨i, -, -, -, hrun⟩ := step_running_run hr h
  · rw [hrun]
    nofun
  · rw [hrun]
    exact runAfter_running_ne_idle i

/-! ### The registers and flags after a step -/

/-- No step of a run touches a reserved bit of the status byte (R19). -/
theorem step_running_keeps_reserved {s t : State} (hr : s.run = .running) (h : step s = .next t) :
    t.p &&& reservedMask = s.p &&& reservedMask := by
  obtain hraised | ⟨i, u, hfetch, hexec⟩ := step_running hr h
  · obtain ⟨-, -, hp⟩ := fetchInstr_raised_keeps_registers hraised
    rw [hp]
  · obtain ⟨rfl, -⟩ := fetchInstr_decoded hfetch
    rw [exec_keeps_reserved hexec, advancePc_p]

/-- Equal under the mask is equal at each of its bits. -/
theorem getLsbD_eq_of_reserved {p q : Byte} (h : p &&& reservedMask = q &&& reservedMask) {j : Nat}
    (hj : j ∈ [0, 2, 3, 4, 5, 6]) : p.getLsbD j = q.getLsbD j := by
  have hmask : reservedMask.getLsbD j = true := by
    revert j
    decide
  simpa [hmask] using congrArg (·.getLsbD j) h

/-- The answer of a step that fetched `i` is the answer of Execute on it. -/
theorem exec_of_step_of_decoded {s t u : State} {i : Instr} (hr : s.run = .running) (h : step s = .next t)
    (hfetch : fetchInstr s = .decoded i u) : exec i u = .next t :=
  (step_of_decoded hr hfetch).symm.trans h

theorem exec_load_flagsDescribe {v : Byte} {s t : State} (h : exec (.loadAccumulatorImmediate v) s = .next t) :
    Safety.FlagsDescribe t.a t := by
  cases h
  exact flagsDescribe_writeRegister .accumulator v s

theorem exec_indexWriter_flagsDescribe {i : Instr} {s t : State} (h : exec i s = .next t)
    (hi : i = .transferAccumulatorToIndex ∨ i = .incrementIndex) : Safety.FlagsDescribe t.x t := by
  obtain rfl | rfl := hi
  · cases h
    exact flagsDescribe_writeRegister .indexX s.a s
  · cases h
    exact flagsDescribe_writeRegister .indexX (s.a + 1) s

/-! ### The host's side -/

/-- A step of a run leaves the host's side alone: given the side the machine already has, `step_withHostSide` answers the same
state with that side (R94). -/
theorem step_running_keeps_hostSide {s t : State} (hr : s.run = .running) (h : step s = .next t) :
    Safety.SameHostSide s t := by
  have hsame : step s = .next (withHostSide s.requests s.observations t) :=
    step_withHostSide s.requests s.observations hr h
  have ht : t = withHostSide s.requests s.observations t := Host.Outcome.next.inj (h.symm.trans hsame)
  exact ⟨(congrArg State.requests ht :), (congrArg State.observations ht :)⟩

/-! ### The obligations -/

/-- Settles O35: the reserved bits are those of `reservedMask`. -/
theorem reservedBitsNeverChangeInARun : Obligations.ReservedBitsNeverChangeInARun :=
  fun _ _ hr h _ => getLsbD_eq_of_reserved (step_running_keeps_reserved hr h)

/-- Settles O36: the flags of a register writer's value, and the status byte a run ender keeps. -/
theorem flagsDescribeTheRegisterWrittenLast : Obligations.FlagsDescribeTheRegisterWrittenLast := by
  intro s t u i hr h hfetch
  have hexec := exec_of_step_of_decoded hr h hfetch
  refine ⟨?load, exec_indexWriter_flagsDescribe hexec, fun hi => ?ender⟩
  case load =>
    rintro ⟨v, rfl⟩
    exact exec_load_flagsDescribe hexec
  case ender =>
    obtain ⟨rfl, -⟩ := fetchInstr_decoded hfetch
    rw [exec_ender_keeps_p hexec hi, advancePc_p]

/-- Settles O37: of the seven things a step can do, one writes `A` and two write `X`. -/
theorem registersChangeOnlyByTheirWriters : Obligations.RegistersChangeOnlyByTheirWriters := by
  intro s t hr h
  obtain ⟨-, rfl⟩ | ⟨-, -, rfl⟩ | ⟨-, rfl⟩ | ⟨v, hop, harg, rfl⟩ | ⟨hop, rfl⟩ | ⟨hop, rfl⟩ | ⟨b, -, -, rfl⟩ :=
    step_running_cases hr h
  case inr.inr.inr.inl => exact ⟨fun _ => ⟨hop, harg⟩, fun hx => absurd rfl hx⟩
  case inr.inr.inr.inr.inl => exact ⟨fun ha => absurd rfl ha, fun _ => .inl hop⟩
  case inr.inr.inr.inr.inr.inl => exact ⟨fun ha => absurd rfl ha, fun _ => .inr hop⟩
  all_goals exact ⟨fun ha => absurd rfl ha, fun hx => absurd rfl hx⟩

/-- Settles O44: the frame of a step of a run, and that another host's side comes through it unseen. -/
theorem hostHasNoMoveDuringARun : Obligations.HostHasNoMoveDuringARun :=
  ⟨fun _ _ hr h => ⟨step_running_keeps_hostSide hr h, step_running_keeps_prog hr h⟩,
    fun _ _ r o => step_withHostSide r o⟩

end Sys2Proof.Machine
end

section
/-! The host's turn (45_host_operations.md section 1, 60_exceptions.md sections 5 and 7): what a step with no run in progress
does for each request, and the output ports. -/

namespace Sys2Proof.Machine

/-- The step that serves the oldest request. -/
theorem step_of_request {s : State} {r : HostRequest} {rest : List HostRequest} (hr : s.run ≠ .running)
    (h : s.requests = r :: rest) : step s = .next (transact r { s with requests := rest }) := by
  rw [step_not_running hr, hostTurn_cons h]

/-- Everything a step can do with no run in progress. -/
theorem step_not_running_cases {s t : State} (hr : s.run ≠ .running) (h : step s = .next t) :
    (s.requests = [] ∧ t = s) ∨
    ∃ r rest, s.requests = r :: rest ∧ t = transact r { s with requests := rest } := by
  cases hreq : s.requests with
  | nil =>
    rw [step_not_running hr, hostTurn_nil hreq] at h
    exact .inl ⟨rfl, (Host.Outcome.next.inj h).symm⟩
  | cons r rest =>
    rw [step_of_request hr hreq] at h
    exact .inr ⟨r, rest, rfl, (Host.Outcome.next.inj h).symm⟩

/-- Only a Construct, or a Run of admitted length, changes the run state or the fault record (R86 to R90). -/
theorem transact_keeps_run_and_fault {r : HostRequest} (hc : r ≠ .construct)
    (hrun : ∀ program, r = .run program → 65535 < program.length) (s : State) :
    (transact r s).run = s.run ∧ (transact r s).fault = s.fault := by
  cases r with
  | construct => exact absurd rfl hc
  | preset w =>
    obtain ⟨hrun, hfault, -⟩ := preset_keeps w s
    exact ⟨hrun, hfault⟩
  | run program =>
    have hrefused : transact (.run program) s = s := startRun_of_lt (hrun program rfl) s
    rw [hrefused]
    exact ⟨rfl, rfl⟩
  | observe => exact ⟨observe_run s, observe_fault s⟩

theorem transact_construct_run (s : State) : (transact .construct s).run = .idle := construct_run s

theorem transact_construct_fault (s : State) : (transact .construct s).fault = .none := construct_fault s

theorem transact_run_of_le {program : List Byte} (h : program.length ≤ 65535) (s : State) :
    transact (.run program) s = runStart program s := startRun_of_le h s

/-- The two faults carry different data under different kinds, so the ports tell all records apart (R96). -/
theorem fault_eq_of_ports {f g : FaultRecord} (hkind : faultKindOf f = faultKindOf g)
    (hbyte : faultByteOf f = faultByteOf g) (hpos : faultPosOf f = faultPosOf g) : f = g := by
  cases f with
  | none => cases g <;> simp_all [faultKindOf]
  | unimplementedOpcode b k => cases g <;> simp_all [faultKindOf, faultByteOf, faultPosOf]
  | outOfBoundsFetch k => cases g <;> simp_all [faultKindOf, faultPosOf]

/-! ### The obligations -/

/-- Settles O45: the oldest request is a Construct. -/
theorem constructIsServedWhenNoRun : Obligations.ConstructIsServedWhenNoRun :=
  fun _ _ hr h => step_of_request hr h

/-- Settles O46: the oldest request is a Preset of each field in turn. -/
theorem presetWritesOneField : Obligations.PresetWritesOneField :=
  fun _ _ hr => ⟨fun _ h => step_of_request hr h, fun _ h => step_of_request hr h, fun _ h => step_of_request hr h,
    fun _ h => step_of_request hr h⟩

/-- Settles O47: the oldest request is a Run, of admitted length or beyond. -/
theorem runStartsOrIsRefused : Obligations.RunStartsOrIsRefused := by
  refine fun s program rest hr h => ⟨fun hle => ?starts, fun hlt => ?refused⟩
  case starts =>
    rw [step_of_request hr h, transact_run_of_le hle]
    rfl
  case refused =>
    rw [step_of_request hr h]
    exact congrArg _ (startRun_of_lt hlt _)

/-- Settles O48: the oldest request is an Observe. -/
theorem observeReadsWithoutSideEffect : Obligations.ObserveReadsWithoutSideEffect :=
  fun _ _ hr h => step_of_request hr h

/-- Settles O49: the host's turn with no request. -/
theorem nothingChangesWithoutARunOrARequest : Obligations.NothingChangesWithoutARunOrARequest := by
  intro s hr h
  rw [step_not_running hr, hostTurn_nil h]

/-- Settles O51: the host's turn by its oldest request, of which Construct and an admitted Run clear the record. -/
theorem faultPersistsUntilConstructOrRun : Obligations.FaultPersistsUntilConstructOrRun := by
  intro s t hfaulted h
  have hr : s.run ≠ .running := by simp [hfaulted]
  obtain ⟨-, rfl⟩ | ⟨r, rest, hreq, rfl⟩ := step_not_running_cases hr h
  · exact .inl ⟨hfaulted, rfl⟩
  · by_cases hc : r = .construct
    · subst hc
      exact .inr ⟨transact_construct_fault _, .inl (by simp [hreq])⟩
    by_cases hrun : ∀ program, r = .run program → 65535 < program.length
    · obtain ⟨hkeepRun, hkeepFault⟩ := transact_keeps_run_and_fault hc hrun { s with requests := rest }
      exact .inl ⟨hkeepRun.trans hfaulted, hkeepFault⟩
    · push Not at hrun
      obtain ⟨program, rfl, hle⟩ := hrun
      rw [transact_run_of_le hle]
      exact .inr ⟨runStart_fault _ _, .inr ⟨program, by simp [hreq]⟩⟩

/-- Settles O50: the termination test for a step of a run, and the oldest request for the host's turn. -/
theorem runStateChangesAsTheTableSays : Obligations.RunStateChangesAsTheTableSays := by
  refine fun s t h => ⟨fun hr => ?running, fun hr => ?host⟩
  case running =>
    exact ⟨step_run_eq_halted_iff hr h, step_run_eq_faulted_iff hr h, step_run_eq_running_iff hr h,
      step_running_ne_idle hr h⟩
  case host =>
    obtain ⟨hnone, rfl⟩ | ⟨r, rest, hreq, rfl⟩ := step_not_running_cases hr h
    · simp [hnone]
    · simp only [hreq, List.head?_cons, ne_eq, Option.some.injEq]
      refine ⟨?construct, ?run, fun hc hrun => ?stays⟩
      case construct =>
        rintro rfl
        exact transact_construct_run _
      case run =>
        rintro program rfl hle
        rw [transact_run_of_le hle, runStart_run]
      case stays =>
        obtain ⟨hkeep, -⟩ := transact_keeps_run_and_fault hc hrun { s with requests := rest }
        exact hkeep

/-- Settles O52: the ports are fields of the state, `prog_len` fits its 16 bits, and the fault ports determine the record. -/
theorem portsShowTheState : Obligations.PortsShowTheState := by
  refine fun s => ⟨rfl, rfl, rfl, rfl, rfl, rfl, rfl, fun hm => ?len, fun t => fault_eq_of_ports⟩
  case len =>
    have hlen := Memory.wf_len hm
    exact (BitVec.toNat_ofNat _ _).trans (Nat.mod_eq_of_lt (by omega))

end Sys2Proof.Machine
end

section
/-! The machine invariant (10_state.md R21, R27; 00_scope.md R5): kept by every step of a run and every host transaction; and
what it gives at the end of a run (41_fde_loop.md R76, 60_exceptions.md R105, R106). -/

namespace Sys2Proof.Machine

open Safety (Invariant)

/-! ### A step of a run -/

/-- Two bytes that are read one after the other have a next offset. -/
theorem toNat_add_two_of_progRead {m : Memory} (hm : m.wf = true) {k : Offset} {b v : Byte} (h : progRead m k = some b)
    (h1 : progRead m (k + 1) = some v) : (k + 2).toNat = k.toNat + 2 := by
  have hk := toNat_add_one_of_progRead hm h
  have hk1 := toNat_add_one_of_progRead hm h1
  bv_omega

/-- A step of a run moves `PC` past the bytes it read, each of them below `L`: none only where the opcode fetch failed. -/
theorem step_running_pc_cases {s t : State} (hm : s.prog.wf = true) (hr : s.run = .running) (h : step s = .next t) :
    (t.pc = s.pc ∧ t.run ≠ .running) ∨
    (t.pc.toNat = s.pc.toNat + 1 ∧ s.pc.toNat < s.prog.len) ∨
    (t.pc.toNat = s.pc.toNat + 2 ∧ s.pc.toNat + 1 < s.prog.len) := by
  obtain ⟨-, rfl⟩ | ⟨hop, -, rfl⟩ | ⟨hop, rfl⟩ | ⟨v, hop, harg, rfl⟩ | ⟨hop, rfl⟩ | ⟨hop, rfl⟩ | ⟨b, -, hop, rfl⟩ :=
    step_running_cases hr h
  case inl => exact .inl ⟨rfl, by simp⟩
  case inr.inr.inr.inl =>
    have hlt := toNat_lt_len_of_progRead hm harg
    rw [toNat_add_one_of_progRead hm hop] at hlt
    exact .inr (.inr ⟨toNat_add_two_of_progRead hm hop harg, hlt⟩)
  all_goals exact .inr (.inl ⟨toNat_add_one_of_progRead hm hop, toNat_lt_len_of_progRead hm hop⟩)

/-- Within a run `PC` moves by at most 2, stays within the program, and moves whenever the run goes on (R21, R79). -/
theorem step_running_pc {s t : State} (hm : s.prog.wf = true) (hpc : s.pc.toNat ≤ s.prog.len) (hr : s.run = .running)
    (h : step s = .next t) :
    s.pc.toNat ≤ t.pc.toNat ∧ t.pc.toNat ≤ s.pc.toNat + 2 ∧ t.pc.toNat ≤ s.prog.len ∧
      (t.run = .running → s.pc.toNat < t.pc.toNat) := by
  obtain ⟨hsame, hover⟩ | ⟨hnext, hlt⟩ | ⟨hnext, hlt⟩ := step_running_pc_cases hm hr h
  · simp [hsame, hpc, hover]
  · omega
  · omega

/-- A step of a run records a fault exactly when it leaves the run Faulted (R27). -/
theorem step_running_fault_iff {s t : State} (hr : s.run = .running) (hf : s.fault = .none) (h : step s = .next t) :
    t.run = .faulted ↔ t.fault ≠ .none := by
  obtain ⟨-, rfl⟩ | ⟨-, -, rfl⟩ | ⟨-, rfl⟩ | ⟨v, -, -, rfl⟩ | ⟨-, rfl⟩ | ⟨-, rfl⟩ | ⟨b, -, -, rfl⟩ :=
    step_running_cases hr h
  all_goals simp [hr, hf]

/-- A running machine that meets the invariant has no fault on record. -/
theorem fault_eq_none_of_running {s : State} (hi : Invariant s) (hr : s.run = .running) : s.fault = .none := by
  obtain ⟨-, hfault, -⟩ := hi
  by_contra hne
  simp [hr] at hfault
  exact hne hfault

theorem step_running_keeps_invariant {s t : State} (hi : Invariant s) (hr : s.run = .running) (h : step s = .next t) :
    Invariant t := by
  have hfault := step_running_fault_iff hr (fault_eq_none_of_running hi hr) h
  have hprog := step_running_keeps_prog hr h
  obtain ⟨hm, -, hpc⟩ := hi
  obtain ⟨-, -, hle, -⟩ := step_running_pc hm (hpc hr) hr h
  exact ⟨hprog ▸ hm, hfault, fun _ => hprog ▸ hle⟩

/-! ### A host transaction -/

theorem runStart_invariant {program : List Byte} (h : program.length ≤ 65535) (s : State) :
    Invariant (runStart program s) :=
  ⟨Memory.wf_ofBytes program h, by simp, fun _ => Nat.zero_le _⟩

/-- A transaction that leaves program, run state and fault record alone keeps the invariant outside a run: there `PC` is
free. -/
theorem invariant_of_same {s t : State} (hi : Invariant s) (hr : s.run ≠ .running) (hrun : t.run = s.run)
    (hfault : t.fault = s.fault) (hprog : t.prog = s.prog) : Invariant t := by
  obtain ⟨hm, hiff, -⟩ := hi
  refine ⟨hprog ▸ hm, ?_, fun hrt => absurd (hrun ▸ hrt) hr⟩
  rw [hrun, hfault]
  exact hiff

theorem transact_keeps_invariant {s : State} (hi : Invariant s) (hr : s.run ≠ .running) (r : HostRequest) :
    Invariant (transact r s) := by
  cases r with
  | construct => exact ⟨Memory.wf_reset, by simp [transact_construct_run, transact_construct_fault], nofun⟩
  | preset w =>
    obtain ⟨hrun, hfault, hprog⟩ := preset_keeps w s
    exact invariant_of_same hi hr hrun hfault hprog
  | run program =>
    by_cases hle : program.length ≤ 65535
    · rw [transact_run_of_le hle]
      exact runStart_invariant hle s
    · have hrefused : transact (.run program) s = s := startRun_of_lt (Nat.not_le.mp hle) s
      rw [hrefused]
      exact hi
  | observe => exact invariant_of_same hi hr (observe_run s) (observe_fault s) (observe_prog s)

/-- Every step keeps the invariant, be it the core's or the host's. -/
theorem step_keeps_invariant {s t : State} (hi : Invariant s) (h : step s = .next t) : Invariant t := by
  by_cases hr : s.run = .running
  · exact step_running_keeps_invariant hi hr h
  · obtain ⟨-, rfl⟩ | ⟨r, rest, -, rfl⟩ := step_not_running_cases hr h
    · exact hi
    · exact transact_keeps_invariant (s := { s with requests := rest }) hi hr r

/-! ### The obligations -/

/-- Settles O39: no program, no fault, no run. -/
theorem resetMeetsTheInvariant : Obligations.ResetMeetsTheInvariant := ⟨Memory.wf_reset, by decide, nofun⟩

/-- Settles O40: a step of a run moves `PC` within the program and records its fault; a transaction rebuilds or keeps. -/
theorem everyStepKeepsTheInvariant : Obligations.EveryStepKeepsTheInvariant := fun _ _ => step_keeps_invariant

/-- Settles O38: the move of `PC` in each of the seven things a step can do. -/
theorem pcMovesForwardWithinTheProgram : Obligations.PcMovesForwardWithinTheProgram := by
  intro s t hi hr h
  obtain ⟨hm, -, hpc⟩ := hi
  exact step_running_pc hm (hpc hr) hr h

/-- Settles O33: the step fetched a Halt, whose opcode byte is 0x00, and `complete` wrote the run state. -/
theorem stateAtNormalCompletion : Obligations.StateAtNormalCompletion := by
  intro s t hi hr h hhalted
  have hfault := fault_eq_none_of_running hi hr
  obtain ⟨hm, -, -⟩ := hi
  obtain ⟨-, rfl⟩ | ⟨-, -, rfl⟩ | ⟨hop, rfl⟩ | ⟨v, -, -, rfl⟩ | ⟨-, rfl⟩ | ⟨-, rfl⟩ | ⟨b, -, -, rfl⟩ :=
    step_running_cases hr h
  case inr.inr.inl =>
    have hpc : (s.pc + 1).toNat = s.pc.toNat + 1 := toNat_add_one_of_progRead hm hop
    exact ⟨hop, ⟨complete_run _, hfault⟩, hpc, rfl, rfl, rfl⟩
  all_goals simp [hr] at hhalted

/-- Settles O34: no opcode byte at `L`, no operand byte at `L`, or an illegal opcode byte. -/
theorem faultingStepIsPrecise : Obligations.FaultingStepIsPrecise := by
  intro s t hi hr h hfaulted
  obtain ⟨hm, -, hpc⟩ := hi
  obtain ⟨hop, rfl⟩ | ⟨hop, harg, rfl⟩ | ⟨-, rfl⟩ | ⟨v, -, -, rfl⟩ | ⟨-, rfl⟩ | ⟨-, rfl⟩ | ⟨b, hb, hop, rfl⟩ :=
    step_running_cases hr h
  case inl =>
    have hend : s.pc.toNat = s.prog.len := le_antisymm (hpc hr) ((progRead_eq_none_iff hm s.pc).mp hop)
    exact ⟨rfl, rfl, rfl, rfl, .inr ⟨rfl, hend, .inl rfl⟩⟩
  case inr.inl =>
    have hend : (s.pc + 1).toNat = s.prog.len := by
      have hlt := toNat_lt_len_of_progRead hm hop
      have hle := (progRead_eq_none_iff hm (s.pc + 1)).mp harg
      have hnext := toNat_add_one_of_progRead hm hop
      omega
    exact ⟨rfl, rfl, rfl, rfl, .inr ⟨rfl, hend, .inr ⟨hop, rfl⟩⟩⟩
  case inr.inr.inr.inr.inr.inr => exact ⟨rfl, rfl, rfl, rfl, .inl ⟨b, rfl, hop, hb, rfl⟩⟩
  all_goals simp [hr] at hfaulted

end Sys2Proof.Machine
end

section
/-! Whole runs: every run ends (41_fde_loop.md R79), and one pass over the program's bytes tells how
(70_reset_and_hazards.md R120). -/

namespace Sys2Proof.Machine

open Safety (Invariant runToEnd verdict verdictFrom)

/-! ### Every run ends -/

theorem runToEnd_keeps_invariant (n : Nat) : ∀ {s : State}, Invariant s → Invariant (runToEnd n s) := by
  induction n with
  | zero => exact id
  | succ n ih =>
    intro s hi
    by_cases hr : s.run = .running
    · obtain ⟨t, h⟩ := exists_step_of_running hr
      rw [runToEnd_succ hr h]
      exact ih (step_keeps_invariant hi h)
    · rw [runToEnd_of_not_running hr]
      exact hi

/-- A step after which the run goes on leaves fewer bytes before `PC` reaches `L`. -/
theorem step_decreases_bytes_left {s t : State} (hi : Invariant s) (hr : s.run = .running) (h : step s = .next t)
    (hrt : t.run = .running) : t.prog.len - t.pc.toNat < s.prog.len - s.pc.toNat := by
  obtain ⟨hm, -, hpc⟩ := hi
  obtain ⟨-, -, hle, hmoves⟩ := step_running_pc hm (hpc hr) hr h
  have hlt := hmoves hrt
  rw [step_running_keeps_prog hr h]
  omega

/-- With more steps than bytes left the run is over (R79). -/
theorem runToEnd_ends (n : Nat) :
    ∀ {s : State}, Invariant s → s.run = .running → s.prog.len - s.pc.toNat < n →
      (runToEnd n s).run = .halted ∨ (runToEnd n s).run = .faulted := by
  induction n with
  | zero => exact fun _ _ hn => absurd hn (Nat.not_lt_zero _)
  | succ n ih =>
    intro s hi hr hn
    obtain ⟨t, h⟩ := exists_step_of_running hr
    rw [runToEnd_succ hr h]
    cases hrt : t.run with
    | idle => exact absurd hrt (step_running_ne_idle hr h)
    | running =>
      have hless := step_decreases_bytes_left hi hr h hrt
      exact ih (step_keeps_invariant hi h) hrt (by omega)
    | halted => rw [runToEnd_of_not_running (by simp [hrt]), hrt]; exact .inl rfl
    | faulted => rw [runToEnd_of_not_running (by simp [hrt]), hrt]; exact .inr rfl

/-! ### The verdict on the bytes from `PC` on -/

/-- What one pass over the bytes of `program` from offset `k` on says (R120). -/
def verdictAt (program : List Byte) (k : Nat) : FaultRecord := verdictFrom k (program.drop k)

theorem verdictAt_zero (program : List Byte) : verdictAt program 0 = verdict program := rfl

/-- A byte read through the program port is the first of those from its offset on. -/
theorem drop_of_progRead {program : List Byte} {k : Offset} {b : Byte}
    (h : progRead (Memory.ofBytes program) k = some b) :
    program.drop k.toNat = b :: program.drop (k.toNat + 1) := by
  rw [progRead_ofBytes, List.getElem?_eq_some_iff] at h
  obtain ⟨hlt, rfl⟩ := h
  exact List.drop_eq_getElem_cons hlt

/-- Where the program port answers nothing no byte is left. -/
theorem drop_of_progRead_none {program : List Byte} {k : Offset} (h : progRead (Memory.ofBytes program) k = none) :
    program.drop k.toNat = [] := by
  rw [progRead_ofBytes, List.getElem?_eq_none_iff] at h
  exact List.drop_eq_nil_of_le h

theorem verdictAt_of_none {program : List Byte} {k : Offset} (h : progRead (Memory.ofBytes program) k = none) :
    verdictAt program k.toNat = .outOfBoundsFetch k := by
  rw [verdictAt, drop_of_progRead_none h, verdictFrom_nil, BitVec.ofNat_toNat, BitVec.setWidth_eq]

theorem verdictAt_of_some {program : List Byte} {k : Offset} {b : Byte}
    (h : progRead (Memory.ofBytes program) k = some b) :
    verdictAt program k.toNat = verdictFrom k.toNat (b :: program.drop (k.toNat + 1)) := by
  rw [verdictAt, drop_of_progRead h]

/-- One step of a run and the pass over the bytes agree: a run that goes on has the same verdict at its new `PC`, and one that
is over has recorded it. -/
theorem step_verdictAt {program : List Byte} {s t : State} (hi : Invariant s) (hprog : s.prog = Memory.ofBytes program)
    (hr : s.run = .running) (h : step s = .next t) :
    (t.run = .running ∧ verdictAt program s.pc.toNat = verdictAt program t.pc.toNat) ∨
    (t.run ≠ .running ∧ t.fault = verdictAt program s.pc.toNat) := by
  have hfault := fault_eq_none_of_running hi hr
  have hcases := step_running_cases hr h
  obtain ⟨hm, -, -⟩ := hi
  rw [hprog] at hm hcases
  have hnext : ∀ {b}, progRead (Memory.ofBytes program) s.pc = some b → (s.pc + 1).toNat = s.pc.toNat + 1 :=
    toNat_add_one_of_progRead hm
  obtain ⟨hop, rfl⟩ | ⟨hop, harg, rfl⟩ | ⟨hop, rfl⟩ | ⟨v, hop, harg, rfl⟩ | ⟨hop, rfl⟩ | ⟨hop, rfl⟩ |
    ⟨b, hb, hop, rfl⟩ := hcases
  case inl => exact .inr ⟨by simp, (verdictAt_of_none hop).symm⟩
  case inr.inl =>
    refine .inr ⟨by simp, ?_⟩
    rw [verdictAt_of_some hop, ← hnext hop, drop_of_progRead_none harg, verdictFrom_load_end, ← hnext hop, BitVec.ofNat_toNat,
      BitVec.setWidth_eq, raise_fault]
  case inr.inr.inl =>
    refine .inr ⟨by simp, ?_⟩
    rw [verdictAt_of_some hop, verdictFrom_halt]
    exact hfault
  case inr.inr.inr.inl =>
    refine .inl ⟨hr, ?_⟩
    have h2 : (s.pc + 2).toNat = s.pc.toNat + 2 := toNat_add_two_of_progRead hm hop harg
    rw [verdictAt_of_some hop, ← hnext hop, drop_of_progRead harg, verdictFrom_load, hnext hop, ← h2, verdictAt, h2]
  case inr.inr.inr.inr.inl =>
    refine .inl ⟨hr, ?_⟩
    rw [verdictAt_of_some hop, verdictFrom_transfer, ← hnext hop, verdictAt]
  case inr.inr.inr.inr.inr.inl =>
    refine .inl ⟨hr, ?_⟩
    rw [verdictAt_of_some hop, verdictFrom_increment, ← hnext hop, verdictAt]
  case inr.inr.inr.inr.inr.inr =>
    refine .inr ⟨by simp, ?_⟩
    rw [verdictAt_of_some hop, verdictFrom_unrecognized _ hb, raise_fault, BitVec.ofNat_toNat, BitVec.setWidth_eq]

/-- A run with more steps than bytes left ends with the verdict at its `PC` on record (R120). -/
theorem runToEnd_fault_eq_verdictAt {program : List Byte} (n : Nat) :
    ∀ {s : State}, Invariant s → s.prog = Memory.ofBytes program → s.run = .running →
      s.prog.len - s.pc.toNat < n → (runToEnd n s).fault = verdictAt program s.pc.toNat := by
  induction n with
  | zero => exact fun _ _ _ hn => absurd hn (Nat.not_lt_zero _)
  | succ n ih =>
    intro s hi hprog hr hn
    obtain ⟨t, h⟩ := exists_step_of_running hr
    rw [runToEnd_succ hr h]
    obtain ⟨hrt, hverdict⟩ | ⟨hrt, hfault⟩ := step_verdictAt hi hprog hr h
    · have hless := step_decreases_bytes_left hi hr h hrt
      have hprog' : t.prog = Memory.ofBytes program := (step_running_keeps_prog hr h).trans hprog
      rw [hverdict]
      exact ih (step_keeps_invariant hi h) hprog' hrt (by omega)
    · rw [runToEnd_of_not_running hrt, hfault]

/-! ### The obligations -/

/-- Settles O41: each step that does not end the run leaves fewer bytes before `L`. -/
theorem everyRunEndsWithinItsBound : Obligations.EveryRunEndsWithinItsBound :=
  fun _ hi hr => runToEnd_ends _ hi hr (Nat.lt_succ_self _)

/-- Settles O42: the recorded fault is the verdict at offset 0, and at the end of the run the invariant ties the run state to
the record. -/
theorem onePassOverTheBytesDecidesTheRun : Obligations.OnePassOverTheBytesDecidesTheRun := by
  intro program s hlen
  have hi : Invariant (runStart program s) := runStart_invariant hlen s
  have hfuel : (runStart program s).prog.len - (runStart program s).pc.toNat < program.length + 1 := by simp
  have hfault : (runToEnd (program.length + 1) (runStart program s)).fault = verdict program :=
    runToEnd_fault_eq_verdictAt _ hi rfl rfl hfuel
  obtain ⟨-, hiff, -⟩ := runToEnd_keeps_invariant (program.length + 1) hi
  rw [hfault] at hiff
  refine ⟨hfault, ?halted, hiff⟩
  case halted =>
    obtain hrun | hrun := runToEnd_ends _ hi rfl hfuel
    · simpa [hrun] using hiff
    · simpa [hrun] using hiff

end Sys2Proof.Machine
end
